-- ==== Sys2Proof/Word.lean ====
section
/-! DEFINITION. The machine's words (spec/00_scope.md R6, R7).

A register access is 64 bits (`REGW`), a value word is 64 bits (`VALW`), a pattern travels through
the 128-bit `PAT` register (`PATW`), and a register slot is named by a 3-bit index (`NREG` = 8). -/

namespace Sys2Proof

/-- A 64-bit word: the data of one register access, a value word, or a command word (R6, R70). -/
abbrev Word := BitVec 64

/-- The 128-bit content of `PAT`; a narrower pattern is zero-extended (R24). -/
abbrev Pattern := BitVec 128

/-- A register index, 0 to 7 (R50). -/
abbrev Index := BitVec 3

end Sys2Proof
end

