-- ==== Sys2Proof/Config.lean ====
section
/-! DEFINITION. What this implementation fixes (spec/00_scope.md R6): the four number formats, the two
rounding modes, the refusal codes, and the shape of a row of the format-descriptor table.

The table's CONTENTS (rule R90) are `Sys2Proof.Machine.desc` in Machine/Descriptor.lean.
The spec leaves no value of a command's result open, so the model has no free value and this file
holds no opaque constant.  The parameters R6 marks OPEN (`BUS_PROTOCOL`, `BASE_ADDR`, `BYTE_LANES`,
the number of instances) are read by no rule, hence by no definition here (log entry 5). -/

namespace Sys2Proof

/-- The four formats, in the order of the `FMT` field (R6, R72). -/
inductive Fmt where
  | b16 | b32 | b64 | b128
  deriving DecidableEq, Repr

/-- The two rounding modes of the arbiter (R73): `rha` rounds ties away from zero and is the source's
rule, `rne` rounds ties to even and is the extension. -/
inductive RoundMode where
  | rha | rne
  deriving DecidableEq, Repr

/-- The sticky refusal code held in `STATUS.ERR` (R30, R198). -/
inductive ErrCode where
  /-- No refusal since reset or the last `CLRERR`. -/
  | none
  /-- A write to `CMD` whose `OP` field is 0 or 8 to 15. -/
  | illegalOpcode
  /-- A write to `CMD` with a legal `OP` and a bit set that must be zero, or `SEL > 8` under `DESC`. -/
  | reservedField
  /-- An access to an unmapped slot, or a write to `STATUS`. -/
  | badAccess
  deriving DecidableEq, Repr

/-- One row of the format-descriptor table: the nine fields of R32, under the names of R11. -/
structure Descriptor where
  ebits : Nat
  mbits : Nat
  bias  : Nat
  nan   : Pattern
  pinf  : Pattern
  ninf  : Pattern
  nzero : Pattern
  pzero : Pattern
  wide  : Bool
  deriving DecidableEq, Repr

end Sys2Proof
end

