-- ==== Sys2Proof/Syntax.lean ====
section
/-! DEFINITION. The seven commands, one constructor per row of spec/opcode_table.json (spec/30_encoding.md
R71).  A command has no operand besides the fields of its word (R77); the registers it uses are fixed
by its rule (R36). -/

namespace Sys2Proof

/-- A decoded command.  `sel` is kept as the unsigned 4-bit number its bits spell (R77); the values
9 to 15 are reserved and no well-formed command carries one (R74). -/
inductive Instr where
  | classify (fmt : Fmt)
  | encode (fmt : Fmt) (rm : RoundMode)
  | decode (fmt : Fmt) (rm : RoundMode)
  | round (fmt : Fmt) (rm : RoundMode)
  | isfloat (fmt : Fmt) (rm : RoundMode)
  | desc (fmt : Fmt) (sel : BitVec 4)
  | clrerr
  deriving DecidableEq, Repr

end Sys2Proof
end

