-- ==== Sys2Proof/WellFormed.lean ====
section
/-! DEFINITION. Which commands some accepted word spells (spec/30_encoding.md R74, R76 check (3)).

`FMT` and `RM` have no reserved value (R72, R73) and the fields a command does not use have no place
in its constructor (R75), so the one check left is the range of `SEL`. -/

namespace Sys2Proof

/-- A selector of `DESC` names one of the nine descriptor fields (R74). -/
def selInRange (sel : BitVec 4) : Bool := decide (sel.toNat ≤ 8)

/-- A command that some word of R84's list spells. -/
def WellFormed : Instr → Bool
  | .classify _ => true
  | .encode _ _ => true
  | .decode _ _ => true
  | .round _ _ => true
  | .isfloat _ _ => true
  | .desc _ sel => selInRange sel
  | .clrerr => true

end Sys2Proof
end

