-- ==== Sys2Proof/Decode.lean ====
section
/-! DEFINITION. The command word: its fields, the decoder (total on all `2^64` words) and the encoder
(spec/30_encoding.md R70 to R84).

A command word is one 64-bit datum of a write to `CMD`; the block fixes no byte order (R55), so the
decoder reads whole words. -/

namespace Sys2Proof

/-- The seven legal values of the `OP` field (R71). -/
inductive Op where
  | classify | encode | decode | round | isfloat | desc | clrerr
  deriving DecidableEq, Repr

/-- The two outcomes of decoding a command word (R76). -/
inductive Decoded where
  | accepted (i : Instr)
  | refused (code : ErrCode)
  deriving DecidableEq, Repr

/-- `w[3:0]` (R70). -/
def opField (w : Word) : BitVec 4 := w.extractLsb' 0 4

/-- `w[5:4]` (R70). -/
def fmtField (w : Word) : BitVec 2 := w.extractLsb' 4 2

/-- `w[6]` (R70). -/
def rmField (w : Word) : BitVec 1 := w.extractLsb' 6 1

/-- `w[11:8]` (R70). -/
def selField (w : Word) : BitVec 4 := w.extractLsb' 8 4

/-- The operation an `OP` value names, none for 0 and 8 to 15 (R71). -/
def opOf (b : BitVec 4) : Option Op :=
  match b.toNat with
  | 1 => some .classify
  | 2 => some .encode
  | 3 => some .decode
  | 4 => some .round
  | 5 => some .isfloat
  | 6 => some .desc
  | 7 => some .clrerr
  | _ => none

/-- The descriptor row an `FMT` value names; every value is legal (R72). -/
def fmtOf (b : BitVec 2) : Fmt :=
  match b.toNat with
  | 0 => .b16
  | 1 => .b32
  | 2 => .b64
  | _ => .b128

/-- The rounding mode an `RM` bit names (R73). -/
def rmOf (b : BitVec 1) : RoundMode := if b.toNat = 0 then .rha else .rne

/-- The column `match` of the opcode table: the word with only `OP` set (R83). -/
def opMatch : Op → Word
  | .classify => 0x0000000000000001#64
  | .encode => 0x0000000000000002#64
  | .decode => 0x0000000000000003#64
  | .round => 0x0000000000000004#64
  | .isfloat => 0x0000000000000005#64
  | .desc => 0x0000000000000006#64
  | .clrerr => 0x0000000000000007#64

/-- The column `mask` of the opcode table: a one in every bit that must equal `match` (R83). -/
def opMask : Op → Word
  | .classify => 0xFFFFFFFFFFFFFFCF#64
  | .encode => 0xFFFFFFFFFFFFFF8F#64
  | .decode => 0xFFFFFFFFFFFFFF8F#64
  | .round => 0xFFFFFFFFFFFFFF8F#64
  | .isfloat => 0xFFFFFFFFFFFFFF8F#64
  | .desc => 0xFFFFFFFFFFFFF0CF#64
  | .clrerr => 0xFFFFFFFFFFFFFFFF#64

/-- The command of operation `o` with the fields of `w` (R76 check (4), R75). -/
def operands (o : Op) (w : Word) : Instr :=
  match o with
  | .classify => .classify (fmtOf (fmtField w))
  | .encode => .encode (fmtOf (fmtField w)) (rmOf (rmField w))
  | .decode => .decode (fmtOf (fmtField w)) (rmOf (rmField w))
  | .round => .round (fmtOf (fmtField w)) (rmOf (rmField w))
  | .isfloat => .isfloat (fmtOf (fmtField w)) (rmOf (rmField w))
  | .desc => .desc (fmtOf (fmtField w)) (selField w)
  | .clrerr => .clrerr

/-- The decoder: the checks of R76 in R76's order, the first that fails deciding the code. -/
def decode (w : Word) : Decoded :=
  match opOf (opField w) with
  | none => .refused .illegalOpcode
  | some o =>
    if w &&& opMask o ≠ opMatch o then .refused .reservedField
    else if o = .desc ∧ 8 < (selField w).toNat then .refused .reservedField
    else .accepted (operands o w)

/-- The `FMT` code of a row (R72). -/
def fmtCode : Fmt → Nat
  | .b16 => 0
  | .b32 => 1
  | .b64 => 2
  | .b128 => 3

/-- The `RM` code of a mode (R73). -/
def rmCode : RoundMode → Nat
  | .rha => 0
  | .rne => 1

/-- The word of the four fields: `OP | FMT << 4 | RM << 6 | SEL << 8` (R84). -/
def composeWord (op fmt rm sel : Nat) : Word :=
  BitVec.ofNat 64 (op ||| fmt <<< 4 ||| rm <<< 6 ||| sel <<< 8)

/-- The encoder: a command's word, unused fields zero (R84, R75). -/
def encode : Instr → Word
  | .classify f => composeWord 1 (fmtCode f) 0 0
  | .encode f r => composeWord 2 (fmtCode f) (rmCode r) 0
  | .decode f r => composeWord 3 (fmtCode f) (rmCode r) 0
  | .round f r => composeWord 4 (fmtCode f) (rmCode r) 0
  | .isfloat f r => composeWord 5 (fmtCode f) (rmCode r) 0
  | .desc f sel => composeWord 6 (fmtCode f) 0 sel.toNat
  | .clrerr => composeWord 7 0 0 0

/-- The command word of an opcode-table row given as its low `nbits` bits, every higher bit zero. -/
def tableWord (nbits w : Nat) : Word := BitVec.ofNat 64 (w % 2 ^ nbits)

/-- The command the decoder reads from a row's bits, none where it refuses the word. -/
def decodeTableWord (nbits w : Nat) : Option Instr :=
  match decode (tableWord nbits w) with
  | .accepted i => some i
  | .refused _ => none

end Sys2Proof
end

