-- ==== Sys2Proof/Machine/State.lean ====
section
/-! DEFINITION. The state of one FPCODEC instance (spec/10_state.md R20) and the host's side of the port.

The architectural state is the 198-bit record `val`, `pat`, `cls`, `q`, `err`.  `pending` and `returned`
are the MODEL's own fields (log entry 1): the transactions the host has still to issue, in the order
the port receives them (spec/20_memory.md R60), and the words its reads have returned so far, oldest
first (spec/70_reset_and_hazards.md R231).  There is no memory (R33) and no program counter (R31). -/

namespace Sys2Proof.Machine

/-- The content of `STATUS.CLS` (R28): the source's seven classes and `none` for "no classification". -/
inductive Class where
  | none | nan | pinf | ninf | pzero | nzero | normal | subnormal
  deriving DecidableEq, Repr

/-- One host transaction at the block's port; there are no others (R220, R231). -/
inductive Transaction where
  /-- `Reset` (R220). -/
  | reset
  /-- `RegRead(i)` (R52). -/
  | regRead (i : Index)
  /-- `RegWrite(i, v)` (R53). -/
  | regWrite (i : Index) (v : Word)
  deriving DecidableEq, Repr

/-- Plain data: the five registers of R20, then the host's side of the port. -/
structure State where
  /-- `VAL`, the value register, index 0 (R21). -/
  val : Word
  /-- `PAT`, the pattern register, indices 1 (low half) and 2 (high half) (R24, R25). -/
  pat : Pattern
  /-- `STATUS.CLS` (R28). -/
  cls : Class
  /-- `STATUS.Q`, the predicate bit (R29). -/
  q : Bool
  /-- `STATUS.ERR`, the sticky refusal code (R30). -/
  err : ErrCode
  /-- The host's transactions still to come, in port order; the model's field. -/
  pending : List Transaction
  /-- The words returned by the host's reads, oldest first; the model's field. -/
  returned : List Word
  deriving DecidableEq, Repr

/-- There is NO fault: "the block is never stuck, never faulted and never hung" (R231), so the type of
fault reasons is empty.  Nothing raises one; safe. -/
inductive Fault where
  deriving DecidableEq, Repr

/-- Reasons for having no meaning for an instruction. -/
inductive Refusal where
  /-- Raised only by an arm of `exec` whose instruction has no meaning yet; no arm does so in this
  model.  Safe: the machine stops where the hardware would go on.  (What the SPEC calls a refused
  command or access is no such stop: it is a next state, see `refuse` in Machine/Ops.lean.) -/
  | notModelled (mnemonic : String)
  deriving DecidableEq, Repr

/-- The machine right after reset (R35): every bit of architectural state zero.  No transaction waits and
no word has been returned (log entry 1). -/
def State.reset : State :=
  { val := 0#64, pat := 0#128, cls := .none, q := false, err := .none, pending := [], returned := [] }

end Sys2Proof.Machine
end

