-- ==== Sys2Proof/Machine/Ops.lean ====
section
/-! DEFINITION. The named operations over the registers: the two halves of `PAT`, the completion of an
accepted command, and the block's one exceptional event, the refusal (spec/60_exceptions.md).

The block masters no memory (spec/20_memory.md, spec/10_state.md R33), so there is none to operate on. -/

namespace Sys2Proof.Machine

/-- `refuse(code)` (R196, R197): nothing changes but the latch, which takes the code only when it holds
`NONE`, so that it keeps the first cause.  This is all there is of "taking an exception" (R201): no
state is saved, no mode changes, no control is transferred. -/
def refuse (code : ErrCode) (s : State) : State :=
  if s.err = .none then { s with err := code } else s

/-- Re-arming the latch, the counterpart of leaving a handler (R202, R185). -/
def clearErr (s : State) : State := { s with err := .none }

/-- Every accepted command writes `CLS` and `Q`, both, every time (R27). -/
def complete (c : Class) (q : Bool) (s : State) : State := { s with cls := c, q := q }

/-- `PAT[63:0]` (R25). -/
def patLo (p : Pattern) : Word := p.extractLsb' 0 64

/-- `PAT[127:64]` (R25). -/
def patHi (p : Pattern) : Word := p.extractLsb' 64 64

/-- `PAT <- {hi, lo}`. -/
def patJoin (hi lo : Word) : Pattern := hi ++ lo

end Sys2Proof.Machine
end

