-- ==== Sys2Proof/Machine/Descriptor.lean ====
section
/-! DEFINITION. The format-descriptor encoder: the constant table of spec/40_descriptor.md R90, and the
`DESC` command (R93).  No definition of the model writes the table (R96). -/

namespace Sys2Proof.Machine

/-- `Desc(fmt)` (R90). -/
def desc : Fmt → Descriptor
  | .b16 =>
    { ebits := 5, mbits := 10, bias := 15, wide := false
      pzero := 0x0000#128, nzero := 0x8000#128, pinf := 0x7C00#128, ninf := 0xFC00#128
      nan := 0x7E00#128 }
  | .b32 =>
    { ebits := 8, mbits := 23, bias := 127, wide := false
      pzero := 0x00000000#128, nzero := 0x80000000#128, pinf := 0x7F800000#128
      ninf := 0xFF800000#128, nan := 0x7FC00000#128 }
  | .b64 =>
    { ebits := 11, mbits := 52, bias := 1023, wide := true
      pzero := 0x0000000000000000#128, nzero := 0x8000000000000000#128
      pinf := 0x7FF0000000000000#128, ninf := 0xFFF0000000000000#128
      nan := 0x7FF8000000000000#128 }
  | .b128 =>
    { ebits := 15, mbits := 112, bias := 16383, wide := true
      pzero := 0x00000000000000000000000000000000#128
      nzero := 0x80000000000000000000000000000000#128
      pinf := 0x7FFF0000000000000000000000000000#128
      ninf := 0xFFFF0000000000000000000000000000#128
      nan := 0x7FFF8000000000000000000000000000#128 }

/-- The binary64 row, `F64` (R11), the target of the decoder's output stage. -/
abbrev f64 : Descriptor := desc .b64

/-- The field of row `F` that a selector names, as the 128-bit word `DESC` delivers; none for the
reserved selectors 9 to 15 (R74, R93). -/
def descField (F : Descriptor) (sel : BitVec 4) : Option Pattern :=
  match sel.toNat with
  | 0 => some (BitVec.ofNat 128 F.ebits)
  | 1 => some (BitVec.ofNat 128 F.mbits)
  | 2 => some (BitVec.ofNat 128 F.bias)
  | 3 => some F.nan
  | 4 => some F.pinf
  | 5 => some F.ninf
  | 6 => some F.nzero
  | 7 => some F.pzero
  | 8 => some (if F.wide then 1#128 else 0#128)
  | _ => none

/-- `DESC.fmt sel` (R93).  A reserved selector is refused with `RESERVED_FIELD`; the decoder refuses its
word already (R76 check (3)), so no command word reaches that case. -/
def execDesc (fmt : Fmt) (sel : BitVec 4) (s : State) : Host.Outcome State Fault Refusal :=
  match descField (desc fmt) sel with
  | some v => .next (complete .none false { s with pat := v })
  | none => .next (refuse .reservedField s)

end Sys2Proof.Machine
end

