-- ==== Sys2Proof/Machine/Operands.lean ====
section
/-! DEFINITION. The operands of a command: the reading of a value word (spec/10_state.md R22), the fields
of a pattern (spec/42_encode.md R126), and exact magnitudes (spec/00_scope.md R9).

A command has no operand form of its own: it reads `VAL` or `PAT` whole (spec/30_encoding.md R77). -/

namespace Sys2Proof.Machine

/-- The bits `lo + len - 1` down to `lo` of a natural number (R7). -/
def slice (n lo len : Nat) : Nat := n / 2 ^ lo % 2 ^ len

/-- `F.W`, the width of a format's patterns (R11). -/
def patWidth (F : Descriptor) : Nat := F.ebits + F.mbits + 1

/-- A non-negative dyadic rational `sig * 2^exp`, exact (R9). -/
structure Mag where
  sig : Nat
  exp : Int
  deriving DecidableEq, Repr

/-- `M < 2^c`, decided exactly by scaling both sides to integers (R9). -/
def magBelow (M : Mag) (c : Int) : Bool :=
  decide (M.sig * 2 ^ (M.exp - c).toNat < 2 ^ (c - M.exp).toNat)

/-- `floor(log2(M))` of a positive magnitude, exact (R9, R125). -/
def magLog2 (M : Mag) : Int := (Nat.log2 M.sig : Int) + M.exp

/-- `M - 2^floor(log2(M))`, the part of a positive magnitude below its leading one (R125). -/
def magFraction (M : Mag) : Mag := { sig := M.sig - 2 ^ Nat.log2 M.sig, exp := M.exp }

/-- What a value word denotes (R22); `neg` is the sign bit. -/
inductive Value where
  | nan
  | inf (neg : Bool)
  | zero (neg : Bool)
  | finite (neg : Bool) (M : Mag)
  deriving DecidableEq, Repr

/-- `Val64(d)` (R22): every word with an all-ones exponent and a non-zero mantissa is the one `nan`. -/
def val64 (d : Word) : Value :=
  let s := d.getMsbD 0
  let E := slice d.toNat 52 11
  let T := slice d.toNat 0 52
  if E = 2047 then (if T = 0 then .inf s else .nan)
  else if E = 0 then
    (if T = 0 then .zero s else .finite s { sig := T, exp := -1074 })
  else .finite s { sig := 2 ^ 52 + T, exp := (E : Int) - 1023 - 52 }

/-- The sign bit of a pattern of format `F` (R126, R152). -/
def signField (F : Descriptor) (b : Nat) : Bool := slice b (F.ebits + F.mbits) 1 == 1

/-- The exponent field of a pattern of format `F` (R126, R152). -/
def expField (F : Descriptor) (b : Nat) : Nat := slice b F.mbits F.ebits

/-- The mantissa field of a pattern of format `F` (R126, R152). -/
def mantField (F : Descriptor) (b : Nat) : Nat := slice b 0 F.mbits

end Sys2Proof.Machine
end

