-- ==== Sys2Proof/Machine/Classify.lean ====
section
/-! DEFINITION. The special-value classifier and the `CLASSIFY` command (spec/41_classify.md). -/

namespace Sys2Proof.Machine

/-- `ClassOf(d, F)` (R111): the first five classes do not depend on the format, and a finite non-zero
value is `SUBNORMAL` exactly when its magnitude is below the format's cutoff `2^(1 - F.bias)`. -/
def classOf (d : Word) (F : Descriptor) : Class :=
  match val64 d with
  | .nan => .nan
  | .inf neg => if neg then .ninf else .pinf
  | .zero neg => if neg then .nzero else .pzero
  | .finite _ M => if magBelow M (1 - (F.bias : Int)) then .subnormal else .normal

/-- `CLASSIFY.fmt` (R110). -/
def execClassify (fmt : Fmt) (s : State) : Host.Outcome State Fault Refusal :=
  .next (complete (classOf s.val (desc fmt)) false s)

end Sys2Proof.Machine
end

