-- ==== Sys2Proof/Machine/Encoder.lean ====
section
/-! DEFINITION. The encoder (spec/42_encode.md): the rounding-mode arbiter, the subnormal normalizer, the
field compositor, and the `ENCODE` command.

Every quantity is an exact integer or dyadic rational (R8, R9, R125); the only rounding is the
arbiter's.  Machine/Rational.lean holds the same rules written over the rationals, word for word. -/

namespace Sys2Proof.Machine

/-- The arbiter, `Round(num / den, rm)` (R123), by exact division with remainder. -/
def arbiter (num den : Nat) (rm : RoundMode) : Nat :=
  let n := num / den
  let r := num % den
  match rm with
  | .rha => if 2 * r < den then n else n + 1
  | .rne =>
    if 2 * r < den then n
    else if den < 2 * r then n + 1
    else if n % 2 = 0 then n else n + 1

/-- `Round(M / 2^j, rm)` (R123 applied as in R124 and R125). -/
def roundMag (M : Mag) (j : Int) (rm : RoundMode) : Nat :=
  arbiter (M.sig * 2 ^ (M.exp - j).toNat) (2 ^ (j - M.exp).toNat) rm

/-- An exponent field and a rounded mantissa, before the carry and the overflow test. -/
structure Fields where
  expf : Nat
  mant : Nat
  deriving DecidableEq, Repr

/-- The subnormal branch (R124): `expf = 0` and `mant = Round(M / 2^(1 - bias - mbits))`. -/
def subnormalFields (M : Mag) (F : Descriptor) (rm : RoundMode) : Fields :=
  { expf := 0, mant := roundMag M (1 - (F.bias : Int) - (F.mbits : Int)) rm }

/-- The normal branch (R125): `expf = e + bias` and `mant = Round((M / 2^e - 1) * 2^mbits)`, where
`(M / 2^e - 1) * 2^mbits = (M - 2^e) / 2^(e - mbits)`. -/
def normalFields (M : Mag) (F : Descriptor) (rm : RoundMode) : Fields :=
  { expf := (magLog2 M + (F.bias : Int)).toNat
    mant := roundMag (magFraction M) (magLog2 M - (F.mbits : Int)) rm }

/-- The subnormal normalizer: which branch, by the cutoff `2^(1 - F.bias)` (R124, R125). -/
def normalizer (M : Mag) (F : Descriptor) (rm : RoundMode) : Fields :=
  if magBelow M (1 - (F.bias : Int)) then subnormalFields M F rm else normalFields M F rm

/-- The mantissa carry (R127): a mantissa of `2^mbits` becomes 0 and the exponent field goes up by one. -/
def carry (F : Descriptor) (x : Fields) : Fields :=
  if x.mant = 2 ^ F.mbits then { expf := x.expf + 1, mant := 0 } else x

/-- Packing the three fields (R126). -/
def pack (F : Descriptor) (s : Bool) (expf mant : Nat) : Pattern :=
  BitVec.ofNat 128 (s.toNat <<< (F.ebits + F.mbits) ||| expf <<< F.mbits ||| mant)

/-- The field compositor: the carry, then saturation to the signed infinity (R128), then packing. -/
def compositor (F : Descriptor) (s : Bool) (x : Fields) : Pattern :=
  let y := carry F x
  if 2 ^ F.ebits - 1 ≤ y.expf then (if s then F.ninf else F.pinf)
  else pack F s y.expf y.mant

/-- `EncodeMag(s, M, F, rm)` (R129). -/
def encodeMag (s : Bool) (M : Mag) (F : Descriptor) (rm : RoundMode) : Pattern :=
  compositor F s (normalizer M F rm)

/-- `Encode(d, F, rm)` (R121): the five special classes are direct returns, without arithmetic. -/
def encodeWord (d : Word) (F : Descriptor) (rm : RoundMode) : Pattern :=
  match val64 d with
  | .nan => F.nan
  | .inf neg => if neg then F.ninf else F.pinf
  | .zero neg => if neg then F.nzero else F.pzero
  | .finite neg M => encodeMag neg M F rm

/-- `ENCODE.fmt.rm` (R120). -/
def execEncode (fmt : Fmt) (rm : RoundMode) (s : State) : Host.Outcome State Fault Refusal :=
  .next (complete (classOf s.val (desc fmt)) false { s with pat := encodeWord s.val (desc fmt) rm })

end Sys2Proof.Machine
end

