-- ==== Sys2Proof/Machine/Decoder.lean ====
section
/-! DEFINITION. The decoder (spec/43_decode.md) and the `DECODE` command. -/

namespace Sys2Proof.Machine

/-- The constants the decoder returns (R23). -/
def pzero64 : Word := 0x0000000000000000#64

/-- See `pzero64`. -/
def nzero64 : Word := 0x8000000000000000#64

/-- See `pzero64`. -/
def pinf64 : Word := 0x7FF0000000000000#64

/-- See `pzero64`. -/
def ninf64 : Word := 0xFFF0000000000000#64

/-- The one NaN word the decoder returns (R23). -/
def qnan64 : Word := 0x7FF8000000000000#64

/-- A value word and the class of the pattern it came from. -/
structure Reading where
  word : Word
  cls  : Class
  deriving DecidableEq, Repr

/-- The output stage (R157): the exact result is delivered through the encoder aimed at binary64. -/
def outputStage (s : Bool) (M : Mag) (rm : RoundMode) : Word := (encodeMag s M f64 rm).setWidth 64

/-- The arithmetic part of the decoder, on the fields of a pattern that is none of the five special
ones: R153 with R156, R154, R155. -/
def decodeFields (s : Bool) (E T : Nat) (F : Descriptor) (rm : RoundMode) : Reading :=
  if E = 0 then
    if T = 0 then (if s then ⟨nzero64, .nzero⟩ else ⟨pzero64, .pzero⟩)
    else ⟨outputStage s { sig := T, exp := 1 - (F.bias : Int) - (F.mbits : Int) } rm, .subnormal⟩
  else if E = 2 ^ F.ebits - 1 then
    if T ≠ 0 then ⟨qnan64, .nan⟩
    else (if s then ⟨ninf64, .ninf⟩ else ⟨pinf64, .pinf⟩)
  else
    ⟨outputStage s
      { sig := 2 ^ F.mbits + T, exp := (E : Int) - (F.bias : Int) - (F.mbits : Int) } rm, .normal⟩

/-- `Decode(p, F, rm)` (R158): bits of `PAT` at and above `F.W` are ignored (R151), the five special
patterns are compared first, the rest is unpacked (R152). -/
def decodePattern (p : Pattern) (F : Descriptor) (rm : RoundMode) : Reading :=
  let b := p.toNat % 2 ^ patWidth F
  if b = F.nan.toNat then ⟨qnan64, .nan⟩
  else if b = F.pinf.toNat then ⟨pinf64, .pinf⟩
  else if b = F.ninf.toNat then ⟨ninf64, .ninf⟩
  else if b = F.nzero.toNat then ⟨nzero64, .nzero⟩
  else if b = F.pzero.toNat then ⟨pzero64, .pzero⟩
  else decodeFields (signField F b) (expField F b) (mantField F b) F rm

/-- `DECODE.fmt.rm` (R150). -/
def execDecode (fmt : Fmt) (rm : RoundMode) (s : State) : Host.Outcome State Fault Refusal :=
  let r := decodePattern s.pat (desc fmt) rm
  .next (complete r.cls false { s with val := r.word })

end Sys2Proof.Machine
end

