-- ==== Sys2Proof/Machine/RoundTrip.lean ====
section
/-! DEFINITION. The round-trip composer: the `ROUND` and `ISFLOAT` commands (spec/44_roundtrip.md). -/

namespace Sys2Proof.Machine

/-- `RoundTo(d, F, rm)` (R171): the intermediate pattern, and its reading. -/
def roundTo (d : Word) (F : Descriptor) (rm : RoundMode) : Pattern × Reading :=
  (encodeWord d F rm, decodePattern (encodeWord d F rm) F rm)

/-- `ROUND.fmt.rm` (R170): `CLS` is the class of the intermediate pattern. -/
def execRound (fmt : Fmt) (rm : RoundMode) (s : State) : Host.Outcome State Fault Refusal :=
  let t := roundTo s.val (desc fmt) rm
  .next (complete t.2.cls false { s with pat := t.1, val := t.2.word })

/-- A NaN word (R22). -/
def isNaNWord (d : Word) : Bool := val64 d == .nan

/-- A zero word of either sign (R22). -/
def isZeroWord (d : Word) : Bool := d == pzero64 || d == nzero64

/-- `ValEq(a, b)` (R174), the source's `==` on doubles. -/
def valEq (a b : Word) : Bool :=
  if isNaNWord a || isNaNWord b then false
  else if isZeroWord a && isZeroWord b then true
  else a == b

/-- `ISFLOAT.fmt.rm` (R173): `CLS` is the class of the input; the internal round trip leaves no trace. -/
def execIsfloat (fmt : Fmt) (rm : RoundMode) (s : State) : Host.Outcome State Fault Refusal :=
  .next (complete (classOf s.val (desc fmt))
    (valEq s.val (roundTo s.val (desc fmt) rm).2.word) s)

end Sys2Proof.Machine
end

