-- ==== Sys2Proof/Machine/System.lean ====
section
/-! DEFINITION. The system command `CLRERR` (spec/45_system.md); there is no other (R186). -/

namespace Sys2Proof.Machine

/-- `CLRERR` (R185): the latch, `CLS` and `Q` become zero. -/
def execClrerr (s : State) : Host.Outcome State Fault Refusal :=
  .next (complete .none false (clearErr s))

end Sys2Proof.Machine
end

