-- ==== Sys2Proof/Machine/Dispatch.lean ====
section
/-! DEFINITION. The dispatch: one arm per command. -/

namespace Sys2Proof.Machine

def exec (i : Instr) (s : State) : Host.Outcome State Fault Refusal :=
  match i with
  | .classify fmt => Sys2Proof.Machine.execClassify fmt s
  | .encode fmt rm => Sys2Proof.Machine.execEncode fmt rm s
  | .decode fmt rm => Sys2Proof.Machine.execDecode fmt rm s
  | .round fmt rm => Sys2Proof.Machine.execRound fmt rm s
  | .isfloat fmt rm => Sys2Proof.Machine.execIsfloat fmt rm s
  | .desc fmt sel => Sys2Proof.Machine.execDesc fmt sel s
  | .clrerr => Sys2Proof.Machine.execClrerr s

end Sys2Proof.Machine
end

