-- ==== Sys2Proof/Machine/Flags.lean ====
section
/-! DEFINITION. The fields of `STATUS` and the word a host reads there (spec/10_state.md R27 to R30).
The block has no other flag: no inexact, overflow, underflow, invalid or carry (R30). -/

namespace Sys2Proof.Machine

/-- The numeric code of a class in `STATUS[2:0]` (R28). -/
def clsCode : Class → BitVec 3
  | .none => 0#3
  | .nan => 1#3
  | .pinf => 2#3
  | .ninf => 3#3
  | .pzero => 4#3
  | .nzero => 5#3
  | .normal => 6#3
  | .subnormal => 7#3

/-- The numeric code of a refusal in `STATUS[5:4]` (R30). -/
def errBits : ErrCode → BitVec 2
  | .none => 0#2
  | .illegalOpcode => 1#2
  | .reservedField => 2#2
  | .badAccess => 3#2

/-- The word a read of `STATUS` returns: `zext_64({ERR, Q, CLS})` (R27, R52). -/
def statusWord (s : State) : Word :=
  (errBits s.err ++ BitVec.ofBool s.q ++ clsCode s.cls).setWidth 64

end Sys2Proof.Machine
end

