-- ==== Sys2Proof/Machine/Bus.lean ====
section
/-! DEFINITION. The port: the register map, `RegRead`, `RegWrite` and `Reset` (spec/20_memory.md,
spec/70_reset_and_hazards.md R220).

Every access is to one whole 64-bit slot (R56) and is one atomic transition (R59). -/

namespace Sys2Proof.Machine

/-- The register map (R51): the five mapped slots, and the unmapped indices 5, 6, 7. -/
inductive Slot where
  | val | patLo | patHi | cmd | status | unmapped
  deriving DecidableEq, Repr

/-- The slot an index names (R51). -/
def slotOf (i : Index) : Slot :=
  match i.toNat with
  | 0 => .val
  | 1 => .patLo
  | 2 => .patHi
  | 3 => .cmd
  | 4 => .status
  | _ => .unmapped

/-- `RegRead(i)` (R52): the word returned and the new state.  Only a read of an unmapped slot changes
the state, by the latch (R57); a read of `CMD` returns zero without refusal. -/
def regRead (i : Index) (s : State) : Word × State :=
  match slotOf i with
  | .val => (s.val, s)
  | .patLo => (patLo s.pat, s)
  | .patHi => (patHi s.pat, s)
  | .cmd => (0#64, s)
  | .status => (statusWord s, s)
  | .unmapped => (0#64, refuse .badAccess s)

/-- A write to `CMD` executes the word (R26, R76): an accepted command by its rule, a refused one with
no effect but the latch (R196). -/
def command (w : Word) (s : State) : Host.Outcome State Fault Refusal :=
  match decode w with
  | .accepted i => exec i s
  | .refused code => .next (refuse code s)

/-- `RegWrite(i, v)` (R53). -/
def regWrite (i : Index) (v : Word) (s : State) : Host.Outcome State Fault Refusal :=
  match slotOf i with
  | .val => .next { s with val := v }
  | .patLo => .next { s with pat := patJoin (patHi s.pat) v }
  | .patHi => .next { s with pat := patJoin v (patLo s.pat) }
  | .cmd => command v s
  | .status => .next (refuse .badAccess s)
  | .unmapped => .next (refuse .badAccess s)

/-- `Reset` (R220): the registers take their values of R35; what the host has still to issue and what
it has been told are the host's and stay (log entry 3). -/
def resetBlock (s : State) : State :=
  { State.reset with pending := s.pending, returned := s.returned }

/-- One transaction, as the port performs it.  The word of a read is handed to the host. -/
def deliver (t : Transaction) (s : State) : Host.Outcome State Fault Refusal :=
  match t with
  | .reset => .next (resetBlock s)
  | .regRead i => .next { (regRead i s).2 with returned := s.returned ++ [(regRead i s).1] }
  | .regWrite i v => regWrite i v s

/-- The block's next transition: the first pending transaction, taken off the queue.  With none
pending nothing happens, for the block has no step of its own (spec/00_scope.md R14; log entry 2). -/
def advance (s : State) : Host.Outcome State Fault Refusal :=
  match s.pending with
  | [] => .next s
  | t :: ts => deliver t { s with pending := ts }

end Sys2Proof.Machine
end

