-- ==== Sys2Proof/Machine/Step.lean ====
section
/-! DEFINITION. One step of the machine, and how the host places a command word in front of it.

Nothing is fetched (spec/20_memory.md R62): a command reaches the block as the data of a write to `CMD`,
so the next instruction is the next pending transaction. -/

namespace Sys2Proof.Machine

/-- One step: the first pending transaction is performed (R59, R60). -/
def step (s : State) : Host.Outcome State Fault Refusal := advance s

/-- `s` with a write of the given command word to `CMD` as the very next transaction; nothing else
changes (log entry 4). -/
def State.withFetchWord (s : State) (nbits w : Nat) : State :=
  { s with pending := .regWrite 3#3 (tableWord nbits w) :: s.pending }

end Sys2Proof.Machine
end

