-- ==== Sys2Proof/Machine/Assembler.lean ====
section
/-! DEFINITION. The spec's notation for host programs: an assembler line is one transaction
(spec/30_encoding.md R81), a pseudo-instruction a fixed list of lines (R82). -/

namespace Sys2Proof.Machine

/-- A register as a line may name it: by its name, or by its index 0 to 7 (R81). -/
inductive AsmReg where
  | val | patLo | patHi | cmd | status
  | index (i : Index)
  deriving DecidableEq, Repr

/-- `index(reg)` (R81, R51). -/
def regIndex : AsmReg → Index
  | .val => 0#3
  | .patLo => 1#3
  | .patHi => 2#3
  | .cmd => 3#3
  | .status => 4#3
  | .index i => i

/-- The field names a `DESC` line takes (R74). -/
inductive FieldName where
  | ebits | mbits | bias | nan | pinf | ninf | nzero | pzero | wide
  deriving DecidableEq, Repr

/-- The `SEL` value of a field name (R74). -/
def selOf : FieldName → BitVec 4
  | .ebits => 0#4
  | .mbits => 1#4
  | .bias => 2#4
  | .nan => 3#4
  | .pinf => 4#4
  | .ninf => 5#4
  | .nzero => 6#4
  | .pzero => 7#4
  | .wide => 8#4

/-- One assembler line (R81).  The rounding suffix may be left out. -/
inductive AsmLine where
  /-- `WR reg, value`. -/
  | wr (r : AsmReg) (v : Word)
  /-- `RD reg`. -/
  | rd (r : AsmReg)
  /-- `CMD word`, an arbitrary word. -/
  | cmd (w : Word)
  /-- `CLASSIFY.fmt`. -/
  | classify (fmt : Fmt)
  /-- `ENCODE.fmt[.rm]`. -/
  | encode (fmt : Fmt) (rm : Option RoundMode)
  /-- `DECODE.fmt[.rm]`. -/
  | decode (fmt : Fmt) (rm : Option RoundMode)
  /-- `ROUND.fmt[.rm]`. -/
  | round (fmt : Fmt) (rm : Option RoundMode)
  /-- `ISFLOAT.fmt[.rm]`. -/
  | isfloat (fmt : Fmt) (rm : Option RoundMode)
  /-- `DESC.fmt sel`. -/
  | desc (fmt : Fmt) (sel : FieldName)
  /-- `CLRERR`. -/
  | clrerr
  deriving DecidableEq, Repr

/-- An omitted rounding suffix means `.rha`, the source's rule (R81). -/
def rmOrDefault (rm : Option RoundMode) : RoundMode := rm.getD .rha

/-- The transaction a command stands for: its word written to index 3 (R81, R84). -/
def issue (i : Instr) : Transaction := .regWrite 3#3 (encode i)

/-- The one transaction a line stands for (R81). -/
def assemble : AsmLine → Transaction
  | .wr r v => .regWrite (regIndex r) v
  | .rd r => .regRead (regIndex r)
  | .cmd w => .regWrite 3#3 w
  | .classify f => issue (.classify f)
  | .encode f rm => issue (.encode f (rmOrDefault rm))
  | .decode f rm => issue (.decode f (rmOrDefault rm))
  | .round f rm => issue (.round f (rmOrDefault rm))
  | .isfloat f rm => issue (.isfloat f (rmOrDefault rm))
  | .desc f sel => issue (.desc f (selOf sel))
  | .clrerr => issue .clrerr

/-- The pseudo-instructions (R82): the source's wrappers around the core. -/
inductive Pseudo where
  | f16round (x : Word)
  | fround (x : Word)
  | isfloat16 (x : Word)
  | isfloat32 (x : Word)
  | enc128 (x : Word)
  | dec128 (hi lo : Word)
  deriving DecidableEq, Repr

/-- A pseudo-instruction's lines (R82). -/
def pseudoLines : Pseudo → List AsmLine
  | .f16round x => [.wr .val x, .round .b16 (some .rha), .rd .val]
  | .fround x => [.wr .val x, .round .b32 (some .rha), .rd .val]
  | .isfloat16 x => [.wr .val x, .isfloat .b16 (some .rha), .rd .status]
  | .isfloat32 x => [.wr .val x, .isfloat .b32 (some .rha), .rd .status]
  | .enc128 x => [.wr .val x, .encode .b128 none, .rd .patLo, .rd .patHi]
  | .dec128 hi lo => [.wr .patLo lo, .wr .patHi hi, .decode .b128 none, .rd .val]

/-- A pseudo-instruction's transactions. -/
def expand (p : Pseudo) : List Transaction := (pseudoLines p).map assemble

end Sys2Proof.Machine
end

