-- ==== Sys2Proof/Machine/Rational.lean ====
section
/-! DEFINITION. The value rules of the spec written over the rational numbers, as the spec writes them:
R9, R22, R111, R121 to R129, R151 to R158, R171, R174.

`exec` uses the integer form of the same rules (Machine/Encoder.lean and its neighbours), which a
kernel can evaluate on numerals; the statements about results are made in THIS form, so that each of
them says the integer datapath computes what the spec's formulas say. -/

namespace Sys2Proof.Machine.Rational

/-- `2^k` for an integer `k` (R9). -/
def pow2 (k : Int) : Rat := (2 : Rat) ^ k

/-- A magnitude as the rational it is (R9). -/
def magValue (M : Mag) : Rat := (M.sig : Rat) * pow2 M.exp

/-- What a value word denotes, a finite magnitude being a rational (R22). -/
inductive RatValue where
  | nan
  | inf (neg : Bool)
  | zero (neg : Bool)
  | finite (neg : Bool) (M : Rat)

/-- `Val64(d)` (R22). -/
def val64 (d : Word) : RatValue :=
  let s : Bool := d.toNat / 2 ^ 63 % 2 = 1
  let E : Nat := d.toNat / 2 ^ 52 % 2 ^ 11
  let T : Nat := d.toNat % 2 ^ 52
  if E = 2047 ∧ T ≠ 0 then .nan
  else if E = 2047 ∧ T = 0 then .inf s
  else if E = 0 ∧ T = 0 then .zero s
  else if E = 0 ∧ T ≠ 0 then .finite s ((T : Rat) * pow2 (-1074))
  else .finite s ((1 + (T : Rat) / 2 ^ 52) * pow2 ((E : Int) - 1023))

/-- `ClassOf(d, F)` (R111). -/
def classOf (d : Word) (F : Descriptor) : Class :=
  match val64 d with
  | .nan => .nan
  | .inf false => .pinf
  | .inf true => .ninf
  | .zero true => .nzero
  | .zero false => .pzero
  | .finite _ M => if M < pow2 (1 - (F.bias : Int)) then .subnormal else .normal

/-- `Round(q, rm)` (R123) of a non-negative rational: `n = floor(q)`, `f = q - n`. -/
def round (q : Rat) (rm : RoundMode) : Nat :=
  let n := Nat.floor q
  let f := q - (n : Rat)
  match rm with
  | .rha => if f < 1 / 2 then n else n + 1
  | .rne => if f < 1 / 2 then n else if 1 / 2 < f then n + 1 else if n % 2 = 0 then n else n + 1

/-- `EncodeMag(s, M, F, rm)`, line by line as in R129; the result is the natural number the pattern
spells (R7). -/
def encodeMagNat (s : Bool) (M : Rat) (F : Descriptor) (rm : RoundMode) : Nat :=
  let m := F.mbits
  let cutoff := pow2 (1 - (F.bias : Int))
  let e := Int.log 2 M
  let expf₀ : Int := if M < cutoff then 0 else e + (F.bias : Int)
  let mant₀ : Nat :=
    if M < cutoff then round (M / pow2 (1 - (F.bias : Int) - (m : Int))) rm
    else round ((M / pow2 e - 1) * 2 ^ m) rm
  let mant := if mant₀ = 2 ^ m then 0 else mant₀
  let expf := if mant₀ = 2 ^ m then expf₀ + 1 else expf₀
  if (2 ^ F.ebits - 1 : Int) ≤ expf then (if s then F.ninf.toNat else F.pinf.toNat)
  else (if s then 1 else 0) <<< (F.ebits + m) ||| expf.toNat <<< m ||| mant

/-- `EncodeMag` as the 128-bit content of `PAT`. -/
def encodeMag (s : Bool) (M : Rat) (F : Descriptor) (rm : RoundMode) : Pattern :=
  BitVec.ofNat 128 (encodeMagNat s M F rm)

/-- `Encode(d, F, rm)` (R121). -/
def encode (d : Word) (F : Descriptor) (rm : RoundMode) : Pattern :=
  match val64 d with
  | .nan => F.nan
  | .inf false => F.pinf
  | .inf true => F.ninf
  | .zero true => F.nzero
  | .zero false => F.pzero
  | .finite s M => encodeMag s M F rm

/-- The magnitude of a pattern with exponent field `E` and mantissa field `T`, `E` not all ones: R153
for `E = 0`, R155 otherwise. -/
def patternMag (E T : Nat) (F : Descriptor) : Rat :=
  if E = 0 then (T : Rat) * pow2 (1 - (F.bias : Int) - (F.mbits : Int))
  else (1 + (T : Rat) / 2 ^ F.mbits) * pow2 ((E : Int) - (F.bias : Int))

/-- `Decode(p, F, rm)`, line by line as in R158. -/
def decode (p : Pattern) (F : Descriptor) (rm : RoundMode) : Word × Class :=
  let W := F.ebits + F.mbits + 1
  let b := p.toNat % 2 ^ W
  if b = F.nan.toNat then (0x7FF8000000000000#64, .nan)
  else if b = F.pinf.toNat then (0x7FF0000000000000#64, .pinf)
  else if b = F.ninf.toNat then (0xFFF0000000000000#64, .ninf)
  else if b = F.nzero.toNat then (0x8000000000000000#64, .nzero)
  else if b = F.pzero.toNat then (0x0000000000000000#64, .pzero)
  else
    let s : Bool := b.testBit (W - 1)
    let E := b / 2 ^ F.mbits % 2 ^ F.ebits
    let T := b % 2 ^ F.mbits
    if E = 0 then
      if T = 0 then (if s then (0x8000000000000000#64, .nzero) else (0x0000000000000000#64, .pzero))
      else (BitVec.ofNat 64 (encodeMagNat s (patternMag E T F) f64 rm), .subnormal)
    else if E = 2 ^ F.ebits - 1 then
      if T ≠ 0 then (0x7FF8000000000000#64, .nan)
      else (if s then (0xFFF0000000000000#64, .ninf) else (0x7FF0000000000000#64, .pinf))
    else (BitVec.ofNat 64 (encodeMagNat s (patternMag E T F) f64 rm), .normal)

/-- `RoundTo(d, F, rm)` (R171): the triple `(p, v, c)`. -/
def roundTo (d : Word) (F : Descriptor) (rm : RoundMode) : Pattern × Word × Class :=
  (encode d F rm, decode (encode d F rm) F rm)

/-- A NaN word (R22). -/
def IsNaN (d : Word) : Prop := d.toNat / 2 ^ 52 % 2 ^ 11 = 2047 ∧ d.toNat % 2 ^ 52 ≠ 0

/-- `ValEq(a, b)` (R174). -/
def ValEq (a b : Word) : Prop :=
  ¬ IsNaN a ∧ ¬ IsNaN b ∧
    ((a = 0#64 ∨ a = 0x8000000000000000#64) ∧ (b = 0#64 ∨ b = 0x8000000000000000#64) ∨ a = b)

end Sys2Proof.Machine.Rational
end

