-- ==== Sys2Proof/Machine/ShiftForm.lean ====
section
/-! DEFINITION. The spec's second form of the encoder, for an implementation that shifts instead of
dividing: the guard and sticky arbiter (spec/42_encode.md R130) and the shift amounts (R132).  `exec`
does not use it; a statement says it gives the encoder's results. -/

namespace Sys2Proof.Machine

/-- Bit `i` of a natural number, 0 above its highest bit (R7, R130). -/
def bitAt (n i : Nat) : Nat := slice n i 1

/-- R130: `Round(sig / 2^k, rm)` by guard and sticky bits. -/
def shiftRound (sig : Nat) (k : Int) (rm : RoundMode) : Nat :=
  if k ≤ 0 then sig * 2 ^ (-k).toNat
  else
    let j := k.toNat
    let n := sig / 2 ^ j
    let guardBit := bitAt sig (j - 1)
    let sticky := slice sig 0 (j - 1) != 0
    match rm with
    | .rha => n + guardBit
    | .rne => if guardBit = 1 ∧ (sticky = true ∨ n % 2 = 1) then n + 1 else n

/-- R132: the 53-bit normalised significand of a finite non-zero value word. -/
def shiftSig (d : Word) : Nat :=
  let T := slice d.toNat 0 52
  if slice d.toNat 52 11 = 0 then T * 2 ^ (52 - Nat.log2 T) else 2 ^ 52 + T

/-- R132, R125: the exponent `e` of a finite non-zero value word, read from its bits. -/
def shiftExp (d : Word) : Int :=
  let E := slice d.toNat 52 11
  if E = 0 then (Nat.log2 (slice d.toNat 0 52) : Int) - 1074 else (E : Int) - 1023

/-- R132: the pattern of a finite non-zero value word by shifts. -/
def shiftEncode (d : Word) (F : Descriptor) (rm : RoundMode) : Pattern :=
  let e := shiftExp d
  let k0 : Int := 52 - (F.mbits : Int)
  compositor F (d.getMsbD 0)
    (if e < 1 - (F.bias : Int) then
      { expf := 0, mant := shiftRound (shiftSig d) (k0 + (1 - (F.bias : Int) - e)) rm }
    else
      { expf := (e + (F.bias : Int)).toNat, mant := shiftRound (shiftSig d - 2 ^ 52) k0 rm })

end Sys2Proof.Machine
end

