-- ==== Sys2Proof/Machine/EncoderLaws.lean ====
section
/-! DEFINITION. The laws (a) to (g) that spec/42_encode.md R131 says a model should prove as checks on its
transcription: what each law says of ONE word, pattern or pair of magnitudes.  The obligations named
beside each definition quantify it. -/

namespace Sys2Proof.Machine

/-- R131 (a): the top bit of the pattern is the word's sign bit (`EncoderPreservesTheSign`). -/
def encodeKeepsSign (d : Word) (F : Descriptor) (rm : RoundMode) : Prop :=
  (encodeWord d F rm).getLsbD (patWidth F - 1) = d.getLsbD 63

/-- R131 (b): a NaN pattern of row `F`, an all-ones exponent field with a non-zero mantissa field
(`OnlyNaNEncodesToNaN`). -/
def IsNaNPattern (F : Descriptor) (b : Nat) : Prop :=
  b / 2 ^ F.mbits % 2 ^ F.ebits = 2 ^ F.ebits - 1 ∧ b % 2 ^ F.mbits ≠ 0

/-- R131 (c), for a word that is no NaN: its binary64 pattern is the word
(`Binary64ConversionIsTheIdentity`). -/
def encode64IsIdentity (d : Word) (rm : RoundMode) : Prop :=
  encodeWord d (desc .b64) rm = d.setWidth 128

/-- R131 (c), for a NaN word: its binary64 pattern is the canonical one
(`Binary64ConversionIsTheIdentity`). -/
def encode64IsCanonicalNaN (d : Word) (rm : RoundMode) : Prop :=
  encodeWord d (desc .b64) rm = 0x7FF8000000000000#128

/-- R131 (d): the binary128 pattern of a finite non-zero word of sign `neg` is
`{s, (e + 16383) as 15 bits, (sig - 2^52) << 60}` (`Binary128EncodeIsExact`). -/
def encode128IsExact (d : Word) (neg : Bool) (rm : RoundMode) : Prop :=
  encodeWord d (desc .b128) rm = BitVec.ofBool neg ++ BitVec.ofInt 15 (shiftExp d + 16383) ++
    BitVec.ofNat 112 ((shiftSig d - 2 ^ 52) * 2 ^ 60)

/-- R131 (e): the magnitude the decoder assigns to the pattern `b`, with its sign, encodes to `b`
(`RepresentableMagnitudesEncodeExactly`). -/
def encodeReproduces (F : Descriptor) (b : Nat) (rm : RoundMode) : Prop :=
  Rational.encodeMagNat (b.testBit (patWidth F - 1))
    (Rational.patternMag (b / 2 ^ F.mbits % 2 ^ F.ebits) (b % 2 ^ F.mbits) F) F rm = b

/-- R131 (f): below the sign bit the pattern of `M₁` is at most that of `M₂` (`EncoderIsMonotone`). -/
def encodeOrdered (s : Bool) (F : Descriptor) (rm : RoundMode) (M₁ M₂ : Rat) : Prop :=
  Rational.encodeMagNat s M₁ F rm % 2 ^ (patWidth F - 1) ≤
    Rational.encodeMagNat s M₂ F rm % 2 ^ (patWidth F - 1)

/-- R131 (g): the mode does not matter to this word (`RoundingModeMattersOnlyOnTies`). -/
def encodeModeFree (d : Word) (F : Descriptor) : Prop := encodeWord d F .rha = encodeWord d F .rne

/-- R131 (g): the `k` discarded low bits of the significand are exactly `1000...0`, with R132's `k` of the
branch the word takes (`RoundingModeMattersOnlyOnTies`). -/
def IsTie (d : Word) (F : Descriptor) : Prop :=
  ∃ k : Nat, 1 ≤ k ∧ shiftSig d % 2 ^ k = 2 ^ (k - 1) ∧
    (k : Int) = 52 - (F.mbits : Int) +
      (if shiftExp d < 1 - (F.bias : Int) then 1 - (F.bias : Int) - shiftExp d else 0)

end Sys2Proof.Machine
end

