-- ==== Sys2Proof/Safety.lean ====
section
/-! DEFINITION. What counts as a safe run (spec/70_reset_and_hazards.md R231): one in which no transaction
was refused.  The block itself is never stuck, faulted or hung, so this is the one outcome a claim
about a run should exclude. -/

namespace Sys2Proof.Machine

/-- The refusal code a transaction earns, none when it is accepted; it depends on the transaction alone
(R57, R76, R198). -/
def refusalOf : Transaction → Option ErrCode
  | .reset => none
  | .regRead i => if slotOf i = .unmapped then some .badAccess else none
  | .regWrite i v =>
    match slotOf i with
    | .val => none
    | .patLo => none
    | .patHi => none
    | .cmd =>
      match decode v with
      | .accepted _ => none
      | .refused c => some c
    | .status => some .badAccess
    | .unmapped => some .badAccess

/-- A transaction that leaves `ERR` zero whatever it held: `Reset`, or an accepted `CLRERR` (R197). -/
def clearsErr : Transaction → Bool
  | .reset => true
  | .regRead _ => false
  | .regWrite i v => slotOf i == .cmd && decode v == .accepted .clrerr

/-- No transaction of the list is refused. -/
def Clean (ts : List Transaction) : Prop := ∀ t ∈ ts, refusalOf t = none

/-- Nothing clears the latch after a refused transaction (R231's proviso). -/
def NoClearAfterRefusal (ts : List Transaction) : Prop :=
  ∀ before after t u, ts = before ++ t :: after → refusalOf t ≠ none → u ∈ after → clearsErr u = false

/-- Every word with operation code `op` outside `ws` is refused: its write to `CMD` has no effect but the
latch, which takes `RESERVED_FIELD` if it was zero (R75, R76, R196, R197). -/
def RefusesOtherWords (op : BitVec 4) (ws : List Word) (s : State) : Prop :=
  ∀ w : Word, w.extractLsb' 0 4 = op → w ∉ ws →
    regWrite 3#3 w s = .next (if s.err = .none then { s with err := .reservedField } else s)

/-- `b` is a pattern of row `F` other than its canonical NaN whose exponent field is all ones and whose
mantissa field is not zero (R12). -/
def NonCanonicalNaN (F : Descriptor) (b : Nat) : Prop :=
  b / 2 ^ F.mbits % 2 ^ F.ebits = 2 ^ F.ebits - 1 ∧ b % 2 ^ F.mbits ≠ 0 ∧ b ≠ F.nan.toNat

/-- `b` is a pattern of row `F` whose value is finite and not zero: its exponent field is not all ones
and its exponent and mantissa fields are not both zero (R153, R155). -/
def FiniteNonZero (F : Descriptor) (b : Nat) : Prop :=
  b < 2 ^ (F.ebits + F.mbits + 1) ∧ b / 2 ^ F.mbits % 2 ^ F.ebits ≠ 2 ^ F.ebits - 1 ∧
    b % 2 ^ (F.ebits + F.mbits) ≠ 0

/-- The words `STATUS` can show: a set predicate bit comes with a class that is a number's (R27, R29,
R173: a NaN never passes the predicate, and every other command clears `Q`). -/
def StatusLegal (s : State) : Prop := s.q = true → s.cls ≠ .none ∧ s.cls ≠ .nan

end Sys2Proof.Machine
end

