-- ==== Sys2Proof/Certificates/Slice0/Obligations.lean ====
section
/-! DEFINITION. The statements about the machine, one `Prop` each, made from the numbered rules of spec/.

A statement of a result is written with the rational forms of Machine/Rational.lean, so it says that
the integer datapath of `exec` computes what the spec's formulas say.  Where a next state is written
`{ s with … }`, the fields not named (the model's `pending` and `returned` of log entry 1 among them)
are unchanged. -/

open Sys2Proof Sys2Proof.Machine

/-- R35, the values the spec states for reset. -/
def Obligations.ResetStateIsAllZero : Prop :=
  State.reset.val = 0x0000000000000000#64 ∧ State.reset.pat = 0#128 ∧ State.reset.cls = .none ∧
    State.reset.q = false ∧ State.reset.err = .none

/-- R220: `Reset` reaches the reset values of R35 from any state, and no command resets the block. -/
def Obligations.ResetReachesResetValuesFromAnyState : Prop :=
  (∀ s : State, ∃ t, deliver .reset s = .next t ∧
    t.val = 0#64 ∧ t.pat = 0#128 ∧ t.cls = .none ∧ t.q = false ∧ t.err = .none) ∧
  (∀ t : Transaction, t = .reset ∨ (∃ i, t = .regRead i) ∨ (∃ i v, t = .regWrite i v)) ∧
  (∀ i : Instr, ∃ s t, exec i s = .next t ∧ (t.val ≠ 0#64 ∨ t.pat ≠ 0#128))

/-- R221. -/
def Obligations.ReadsAfterResetReturnZero : Prop :=
  ∀ s : State, ∃ t, deliver .reset s = .next t ∧
    (regRead 4#3 t).1 = 0#64 ∧ (regRead 0#3 t).1 = 0#64 ∧
    (regRead 1#3 t).1 = 0#64 ∧ (regRead 2#3 t).1 = 0#64

/-- R52, every index: the word returned and the new state. -/
def Obligations.RegisterReadsFollowTheMap : Prop :=
  ∀ s : State,
    regRead 0#3 s = (s.val, s) ∧
    regRead 1#3 s = (BitVec.ofNat 64 (s.pat.toNat % 2 ^ 64), s) ∧
    regRead 2#3 s = (BitVec.ofNat 64 (s.pat.toNat / 2 ^ 64), s) ∧
    regRead 3#3 s = (0#64, s) ∧
    regRead 4#3 s = (BitVec.ofNat 64 ((clsCode s.cls).toNat + 8 * s.q.toNat +
      16 * (errBits s.err).toNat), s) ∧
    (∀ i : Index, 5 ≤ i.toNat →
      regRead i s = (0#64, if s.err = .none then { s with err := .badAccess } else s))

/-- R27, R28, R30: where the fields stand in `STATUS` and which code each value has. -/
def Obligations.StatusWordShowsItsFieldsAndCodes : Prop :=
  ∀ s : State, ∃ w : Word, (regRead 4#3 s).1 = w ∧
    w.extractLsb' 6 58 = 0#58 ∧
    (w.extractLsb' 3 1 = 1#1 ↔ s.q = true) ∧
    (s.cls = .none ↔ w.extractLsb' 0 3 = 0#3) ∧
    (s.cls = .nan ↔ w.extractLsb' 0 3 = 1#3) ∧
    (s.cls = .pinf ↔ w.extractLsb' 0 3 = 2#3) ∧
    (s.cls = .ninf ↔ w.extractLsb' 0 3 = 3#3) ∧
    (s.cls = .pzero ↔ w.extractLsb' 0 3 = 4#3) ∧
    (s.cls = .nzero ↔ w.extractLsb' 0 3 = 5#3) ∧
    (s.cls = .normal ↔ w.extractLsb' 0 3 = 6#3) ∧
    (s.cls = .subnormal ↔ w.extractLsb' 0 3 = 7#3) ∧
    (s.err = .none ↔ w.extractLsb' 4 2 = 0#2) ∧
    (s.err = .illegalOpcode ↔ w.extractLsb' 4 2 = 1#2) ∧
    (s.err = .reservedField ↔ w.extractLsb' 4 2 = 2#2) ∧
    (s.err = .badAccess ↔ w.extractLsb' 4 2 = 3#2)

/-- R53, every index: the operand registers, the command register, and the refused accesses. -/
def Obligations.RegisterWritesFollowTheMap : Prop :=
  ∀ (s : State) (v : Word),
    regWrite 0#3 v s = .next { s with val := v } ∧
    regWrite 1#3 v s = .next { s with pat := s.pat.extractLsb' 64 64 ++ v } ∧
    regWrite 2#3 v s = .next { s with pat := v ++ s.pat.extractLsb' 0 64 } ∧
    (∀ i, decode v = .accepted i → regWrite 3#3 v s = exec i s) ∧
    (∀ c, decode v = .refused c →
      regWrite 3#3 v s = .next (if s.err = .none then { s with err := c } else s)) ∧
    (∀ i : Index, 4 ≤ i.toNat →
      regWrite i v s = .next (if s.err = .none then { s with err := .badAccess } else s))

/-- R224: the order of the two half writes does not matter, and both halves land. -/
def Obligations.PatHalfWritesCommute : Prop :=
  ∀ (s : State) (lo hi : Word), ∃ a b t,
    regWrite 1#3 lo s = .next a ∧ regWrite 2#3 hi a = .next t ∧
    regWrite 2#3 hi s = .next b ∧ regWrite 1#3 lo b = .next t ∧ t = { s with pat := hi ++ lo }

/-- R58: every access is idempotent, the writes of `CMD` with every command among them, and only the
reads at 5 to 7 have a side effect, the one of R57. -/
def Obligations.RepeatedAccessChangesNothingMore : Prop :=
  (∀ (i : Index) (v : Word) (s : State), ∃ t, regWrite i v s = .next t ∧ regWrite i v t = .next t) ∧
  (∀ (i : Index) (s : State), (regRead i (regRead i s).2).1 = (regRead i s).1) ∧
  (∀ (i : Index) (s : State), i.toNat ≤ 4 → (regRead i s).2 = s) ∧
  (∀ (i : Index) (s : State), 5 ≤ i.toNat →
    (regRead i s).2 = if s.err = .none then { s with err := .badAccess } else s)

/-- Decode and encode agree: every bit of every command's encoding is read back (R70 to R76, R84). -/
def Obligations.DecodeInvertsEncode : Prop :=
  ∀ i : Instr, WellFormed i = true → decode (encode i) = .accepted i

/-- Every accepted word spells one command, and is that command's only word. -/
def Obligations.AcceptedWordIsItsCommandsEncoding : Prop :=
  ∀ (w : Word) (i : Instr), decode w = .accepted i → WellFormed i = true ∧ encode i = w

/-- R84: the words of the seven commands, and no other word is accepted. -/
def Obligations.ExactlySeventyThreeWordsAreAccepted : Prop :=
  let fmts : List Fmt := [.b16, .b32, .b64, .b128]
  let classify : List Word := [0x01#64, 0x11#64, 0x21#64, 0x31#64]
  let encodeRha : List Word := [0x02#64, 0x12#64, 0x22#64, 0x32#64]
  let encodeRne : List Word := [0x42#64, 0x52#64, 0x62#64, 0x72#64]
  let decodeRha : List Word := [0x03#64, 0x13#64, 0x23#64, 0x33#64]
  let decodeRne : List Word := [0x43#64, 0x53#64, 0x63#64, 0x73#64]
  let roundRha : List Word := [0x04#64, 0x14#64, 0x24#64, 0x34#64]
  let roundRne : List Word := [0x44#64, 0x54#64, 0x64#64, 0x74#64]
  let isfloatRha : List Word := [0x05#64, 0x15#64, 0x25#64, 0x35#64]
  let isfloatRne : List Word := [0x45#64, 0x55#64, 0x65#64, 0x75#64]
  let desc : List Word := (List.range 9).flatMap fun sel =>
    (List.range 4).map fun f => BitVec.ofNat 64 (0x006 + 0x100 * sel + 0x10 * f)
  let all : List Word := classify ++ encodeRha ++ encodeRne ++ decodeRha ++ decodeRne ++
    roundRha ++ roundRne ++ isfloatRha ++ isfloatRne ++ desc ++ [0x07#64]
  fmts.map (fun f => encode (.classify f)) = classify ∧
  fmts.map (fun f => encode (.encode f .rha)) = encodeRha ∧
  fmts.map (fun f => encode (.encode f .rne)) = encodeRne ∧
  fmts.map (fun f => encode (.decode f .rha)) = decodeRha ∧
  fmts.map (fun f => encode (.decode f .rne)) = decodeRne ∧
  fmts.map (fun f => encode (.round f .rha)) = roundRha ∧
  fmts.map (fun f => encode (.round f .rne)) = roundRne ∧
  fmts.map (fun f => encode (.isfloat f .rha)) = isfloatRha ∧
  fmts.map (fun f => encode (.isfloat f .rne)) = isfloatRne ∧
  ((List.range 9).flatMap fun sel => fmts.map fun f => encode (.desc f (BitVec.ofNat 4 sel))) = desc ∧
  encode .clrerr = 0x07#64 ∧
  all.length = 73 ∧ all.Nodup ∧
  ∀ w : Word, (∃ i, decode w = .accepted i) ↔ w ∈ all

/-- R76: the decoder's checks and their order, with the fields of the accepted command; an accepted
command is executed, a refused one has only the effect of R196. -/
def Obligations.DecoderChecksInOrder : Prop :=
  ∀ w : Word,
    let op := (w.extractLsb' 0 4).toNat
    let fmt : Fmt := match (w.extractLsb' 4 2).toNat with
      | 0 => .b16
      | 1 => .b32
      | 2 => .b64
      | _ => .b128
    let rm : RoundMode := if w.getLsbD 6 then .rne else .rha
    let sel := w.extractLsb' 8 4
    (op = 0 ∨ 8 ≤ op → decode w = .refused .illegalOpcode) ∧
    (op = 1 → decode w =
      if w &&& 0xFFFFFFFFFFFFFFCF#64 ≠ 1#64 then .refused .reservedField
      else .accepted (.classify fmt)) ∧
    (op = 2 → decode w =
      if w &&& 0xFFFFFFFFFFFFFF8F#64 ≠ 2#64 then .refused .reservedField
      else .accepted (.encode fmt rm)) ∧
    (op = 3 → decode w =
      if w &&& 0xFFFFFFFFFFFFFF8F#64 ≠ 3#64 then .refused .reservedField
      else .accepted (.decode fmt rm)) ∧
    (op = 4 → decode w =
      if w &&& 0xFFFFFFFFFFFFFF8F#64 ≠ 4#64 then .refused .reservedField
      else .accepted (.round fmt rm)) ∧
    (op = 5 → decode w =
      if w &&& 0xFFFFFFFFFFFFFF8F#64 ≠ 5#64 then .refused .reservedField
      else .accepted (.isfloat fmt rm)) ∧
    (op = 6 → decode w =
      if w &&& 0xFFFFFFFFFFFFF0CF#64 ≠ 6#64 then .refused .reservedField
      else if 8 < sel.toNat then .refused .reservedField
      else .accepted (.desc fmt sel)) ∧
    (op = 7 → decode w =
      if w &&& 0xFFFFFFFFFFFFFFFF#64 ≠ 7#64 then .refused .reservedField
      else .accepted .clrerr) ∧
    (∀ (i : Instr) (s : State), decode w = .accepted i → regWrite 3#3 w s = exec i s) ∧
    (∀ (c : ErrCode) (s : State), decode w = .refused c →
      regWrite 3#3 w s = .next (if s.err = .none then { s with err := c } else s))

/-- The words R81 and spec/95_test_vectors.md section 2.7 print, and what each stands for. -/
def Obligations.PrintedWordsDecodeAsPrinted : Prop :=
  decode 0x01#64 = .accepted (.classify .b16) ∧ decode 0x02#64 = .accepted (.encode .b16 .rha) ∧
  decode 0x73#64 = .accepted (.decode .b128 .rne) ∧ decode 0x54#64 = .accepted (.round .b32 .rne) ∧
  decode 0x25#64 = .accepted (.isfloat .b64 .rha) ∧ decode 0x236#64 = .accepted (.desc .b128 2#4) ∧
  decode 0x07#64 = .accepted .clrerr ∧
  decode 0x00#64 = .refused .illegalOpcode ∧ decode 0x80#64 = .refused .illegalOpcode ∧
  decode 0x82#64 = .refused .reservedField ∧ decode 0x1002#64 = .refused .reservedField ∧
  decode 0x8000000000000003#64 = .refused .reservedField ∧
  decode 0x102#64 = .refused .reservedField ∧ decode 0x41#64 = .refused .reservedField ∧
  decode 0x46#64 = .refused .reservedField ∧ decode 0x906#64 = .refused .reservedField ∧
  decode 0x17#64 = .refused .reservedField

/-- A step runs the decoded instruction: when the next transaction writes to `CMD` a word that decodes to
`i`, the step is `exec i` on the state with that transaction taken off the queue, and
`withFetchWord` puts such a transaction in front (R26, R76).  The queue `pending` and `withFetchWord`
are the model's DESIGN CHOICES, log entries 1 and 4: the spec has a host that writes `CMD` and no
queue. -/
def Obligations.StepRunsTheDecodedCommand : Prop :=
  ∀ (s : State) (w : Word) (i : Instr) (ts : List Transaction), decode w = .accepted i →
    (s.pending = .regWrite 3#3 w :: ts → step s = exec i { s with pending := ts }) ∧
    step (s.withFetchWord 64 w.toNat) = exec i s

/-- A step performs the first pending transaction, and nothing when none is pending (R14, R60; the queue
is the model's, log entries 1 and 2; that `Reset` keeps it and `returned`, log entry 3). -/
def Obligations.StepPerformsTheFirstPendingTransaction : Prop :=
  (∀ s : State, s.pending = [] → step s = .next s) ∧
  (∀ (s : State) (i : Index) (ts : List Transaction), s.pending = .regRead i :: ts →
    step s = .next { (regRead i { s with pending := ts }).2 with
      returned := s.returned ++ [(regRead i { s with pending := ts }).1] }) ∧
  (∀ (s : State) (i : Index) (v : Word) (ts : List Transaction), s.pending = .regWrite i v :: ts →
    step s = regWrite i v { s with pending := ts }) ∧
  (∀ (s : State) (ts : List Transaction), s.pending = .reset :: ts →
    step s = .next { State.reset with pending := ts, returned := s.returned })

/-- R231: the block is never stuck, faulted or hung: from every state a step answers a next state.  R231
gives each TRANSACTION its successor; the queue `pending`, that a step takes its first entry and that
`Reset` keeps the rest, and the idle step with nothing pending are the model's (log entry 1, a DESIGN
CHOICE, and log entries 2 and 3, DEDUCED). -/
def Obligations.StepAlwaysAnswersNext : Prop :=
  ∀ s : State, ∃ t, step s = .next t ∧ t.pending = s.pending.tail

/-- R231: a run of any transactions ends, with nothing pending and one word for each read, after the
words returned before.  The fields `pending` and `returned` in which it is said are the model's own (log
entry 1, a DESIGN CHOICE), and so is that `Reset` keeps both (log entry 3, DEDUCED). -/
def Obligations.RunsEndWithOneWordPerRead : Prop :=
  ∀ (ts : List Transaction) (s : State), ∃ t ws,
    Host.Core.run Sys2Proof.core ts.length { s with pending := ts } = .next t ∧
    t.pending = [] ∧ t.returned = s.returned ++ ws ∧
    ws.length = ts.countP (fun x => match x with | .regRead _ => true | _ => false)

/-- R196, R197: a refused transaction changes nothing but the latch, which keeps the first cause, and a
refused read returns zero. -/
def Obligations.RefusedTransactionOnlyLatches : Prop :=
  ∀ (t : Transaction) (c : ErrCode) (s : State), refusalOf t = some c →
    ∃ u, deliver t s = .next u ∧ u.val = s.val ∧ u.pat = s.pat ∧ u.cls = s.cls ∧ u.q = s.q ∧
      u.err = (if s.err = .none then c else s.err) ∧
      (∀ i, t = .regRead i → (regRead i s).1 = 0#64)

/-- R197: the latch is sticky.  Once not zero it keeps its code through every transaction but `Reset`
and an accepted `CLRERR`, and those two make it zero; an accepted transaction never sets it. -/
def Obligations.ErrorCodeIsStickyUntilCleared : Prop :=
  ∀ (t : Transaction) (s : State), ∃ u, deliver t s = .next u ∧
    (clearsErr t = true → u.err = .none) ∧
    (clearsErr t = false → s.err ≠ .none → u.err = s.err) ∧
    (clearsErr t = false → refusalOf t = none → u.err = s.err)

/-- R197: a non-zero `ERR` has no effect on anything but what a read of `STATUS` shows.  The clauses on
`pending` and `returned` speak of the model's own fields (log entry 1, a DESIGN CHOICE). -/
def Obligations.ErrorCodeAffectsNothingElse : Prop :=
  ∀ (t : Transaction) (s : State) (e : ErrCode), ∃ a b,
    deliver t s = .next a ∧ deliver t { s with err := e } = .next b ∧
    a.val = b.val ∧ a.pat = b.pat ∧ a.cls = b.cls ∧ a.q = b.q ∧ a.pending = b.pending ∧
    (t ≠ .regRead 4#3 → a.returned = b.returned)

/-- R15, R36: what a command writes is a function of the command and of the registers it reads. -/
def Obligations.DocumentedReadsDetermineWrites : Prop :=
  ∀ (f : Fmt) (rm : RoundMode) (sel : BitVec 4) (s u : State),
    (s.val = u.val → ∃ a b, exec (.classify f) s = .next a ∧ exec (.classify f) u = .next b ∧
      a.cls = b.cls ∧ a.q = b.q) ∧
    (s.val = u.val → ∃ a b, exec (.encode f rm) s = .next a ∧ exec (.encode f rm) u = .next b ∧
      a.pat = b.pat ∧ a.cls = b.cls ∧ a.q = b.q) ∧
    (s.val = u.val → ∃ a b, exec (.round f rm) s = .next a ∧ exec (.round f rm) u = .next b ∧
      a.val = b.val ∧ a.pat = b.pat ∧ a.cls = b.cls ∧ a.q = b.q) ∧
    (s.val = u.val → ∃ a b, exec (.isfloat f rm) s = .next a ∧ exec (.isfloat f rm) u = .next b ∧
      a.cls = b.cls ∧ a.q = b.q) ∧
    (s.pat.toNat % 2 ^ patWidth (desc f) = u.pat.toNat % 2 ^ patWidth (desc f) →
      ∃ a b, exec (.decode f rm) s = .next a ∧ exec (.decode f rm) u = .next b ∧
        a.val = b.val ∧ a.cls = b.cls ∧ a.q = b.q) ∧
    (WellFormed (.desc f sel) = true →
      ∃ a b, exec (.desc f sel) s = .next a ∧ exec (.desc f sel) u = .next b ∧
        a.pat = b.pat ∧ a.cls = b.cls ∧ a.q = b.q) ∧
    (∃ a b, exec .clrerr s = .next a ∧ exec .clrerr u = .next b ∧
      a.cls = b.cls ∧ a.q = b.q ∧ a.err = b.err)

/-- The frame of every command (R36, R27): the registers each leaves alone, and `Q` zero after every
command but `ISFLOAT`.  That `pending` and `returned` stay speaks of the model's own fields (log
entry 1, a DESIGN CHOICE). -/
def Obligations.CommandsLeaveOtherRegistersAlone : Prop :=
  ∀ (f : Fmt) (rm : RoundMode) (sel : BitVec 4) (s t : State),
    (exec (.classify f) s = .next t → t.val = s.val ∧ t.pat = s.pat ∧ t.err = s.err ∧
      t.q = false ∧ t.pending = s.pending ∧ t.returned = s.returned) ∧
    (exec (.encode f rm) s = .next t → t.val = s.val ∧ t.err = s.err ∧
      t.q = false ∧ t.pending = s.pending ∧ t.returned = s.returned) ∧
    (exec (.decode f rm) s = .next t → t.pat = s.pat ∧ t.err = s.err ∧
      t.q = false ∧ t.pending = s.pending ∧ t.returned = s.returned) ∧
    (exec (.round f rm) s = .next t → t.err = s.err ∧
      t.q = false ∧ t.pending = s.pending ∧ t.returned = s.returned) ∧
    (exec (.isfloat f rm) s = .next t → t.val = s.val ∧ t.pat = s.pat ∧ t.err = s.err ∧
      t.pending = s.pending ∧ t.returned = s.returned) ∧
    (WellFormed (.desc f sel) = true → exec (.desc f sel) s = .next t → t.val = s.val ∧
      t.err = s.err ∧ t.cls = .none ∧ t.q = false ∧ t.pending = s.pending ∧
      t.returned = s.returned) ∧
    (exec .clrerr s = .next t → t.val = s.val ∧ t.pat = s.pat ∧ t.err = .none ∧
      t.cls = .none ∧ t.q = false ∧ t.pending = s.pending ∧ t.returned = s.returned)

/-- R90, the table cell by cell. -/
def Obligations.DescriptorTableHoldsItsRows : Prop :=
  (patWidth (desc .b16) = 16 ∧ desc .b16 =
    { ebits := 5, mbits := 10, bias := 15, wide := false, pzero := 0x0000#128, nzero := 0x8000#128,
      pinf := 0x7C00#128, ninf := 0xFC00#128, nan := 0x7E00#128 }) ∧
  (patWidth (desc .b32) = 32 ∧ desc .b32 =
    { ebits := 8, mbits := 23, bias := 127, wide := false, pzero := 0#128, nzero := 0x80000000#128,
      pinf := 0x7F800000#128, ninf := 0xFF800000#128, nan := 0x7FC00000#128 }) ∧
  (patWidth (desc .b64) = 64 ∧ desc .b64 =
    { ebits := 11, mbits := 52, bias := 1023, wide := true, pzero := 0#128,
      nzero := 0x8000000000000000#128, pinf := 0x7FF0000000000000#128,
      ninf := 0xFFF0000000000000#128, nan := 0x7FF8000000000000#128 }) ∧
  (patWidth (desc .b128) = 128 ∧ desc .b128 =
    { ebits := 15, mbits := 112, bias := 16383, wide := true, pzero := 0#128,
      nzero := 0x80000000000000000000000000000000#128,
      pinf := 0x7FFF0000000000000000000000000000#128,
      ninf := 0xFFFF0000000000000000000000000000#128,
      nan := 0x7FFF8000000000000000000000000000#128 })

/-- R94, for every row. -/
def Obligations.DescriptorTableKeepsItsInvariants : Prop :=
  ∀ f : Fmt, let F := desc f
    patWidth F = F.ebits + F.mbits + 1 ∧ patWidth F ∈ [16, 32, 64, 128] ∧
    [F.nan, F.pinf, F.ninf, F.nzero, F.pzero].Nodup ∧
    (∀ p ∈ [F.nan, F.pinf, F.ninf, F.nzero, F.pzero], p.toNat < 2 ^ patWidth F) ∧
    2 ≤ F.ebits ∧ 2 ≤ F.mbits ∧ F.bias = 2 ^ (F.ebits - 1) - 1 ∧
    (F.wide = true ↔ 53 < patWidth F)

/-- R93: `DESC` delivers the selected field to all of `PAT`; the other words with its opcode are refused. -/
def Obligations.DescDeliversTheSelectedField : Prop :=
  ∀ (f : Fmt) (s : State), let F := desc f
    (∀ (sel : BitVec 4) (v : Pattern),
      (sel.toNat, v) ∈ [(0, BitVec.ofNat 128 F.ebits), (1, BitVec.ofNat 128 F.mbits),
        (2, BitVec.ofNat 128 F.bias), (3, F.nan), (4, F.pinf), (5, F.ninf), (6, F.nzero), (7, F.pzero),
        (8, if F.wide then 1#128 else 0#128)] →
      exec (.desc f sel) s = .next { s with pat := v, cls := .none, q := false } ∧
      regWrite 3#3 (BitVec.ofNat 64 (0x006 + 0x100 * sel.toNat + 0x10 * fmtCode f)) s =
        .next { s with pat := v, cls := .none, q := false }) ∧
    RefusesOtherWords 6#4 ((List.range 9).flatMap fun sel =>
      (List.range 4).map fun k => BitVec.ofNat 64 (0x006 + 0x100 * sel + 0x10 * k)) s

/-- R110: `CLASSIFY` reports the class of `VAL` relative to the format, and writes nothing else. -/
def Obligations.ClassifyReportsTheClassOfVal : Prop :=
  ∀ s : State,
    (∀ f : Fmt,
      exec (.classify f) s =
        .next { s with cls := Rational.classOf s.val (desc f), q := false } ∧
      regWrite 3#3 (BitVec.ofNat 64 (0x01 + 0x10 * fmtCode f)) s =
        .next { s with cls := Rational.classOf s.val (desc f), q := false }) ∧
    RefusesOtherWords 1#4 [0x01#64, 0x11#64, 0x21#64, 0x31#64] s

/-- R112: the classifier's tests on the bits of the word. -/
def Obligations.ClassifierReadsTheBitsOfTheWord : Prop :=
  ∀ d : Word,
    let E := (d.extractLsb' 52 11).toNat
    let T := (d.extractLsb' 0 52).toNat
    let finite := E ≠ 2047 ∧ (E ≠ 0 ∨ T ≠ 0)
    (∀ f : Fmt, let c := classOf d (desc f)
      (c = .nan ↔ E = 2047 ∧ T ≠ 0) ∧
      (c = .pinf ↔ d = 0x7FF0000000000000#64) ∧ (c = .ninf ↔ d = 0xFFF0000000000000#64) ∧
      (c = .pzero ↔ d = 0#64) ∧ (c = .nzero ↔ d = 0x8000000000000000#64) ∧
      (c = .subnormal ↔ finite ∧
        (if 1 ≤ E then (E : Int) - 1023 else (Nat.log2 T : Int) - 1074) <
          1 - ((desc f).bias : Int)) ∧
      (c = .normal ↔ finite ∧ c ≠ .subnormal) ∧ c ≠ .none) ∧
    (∀ neg M, Rational.val64 d = .finite neg M →
      (classOf d (desc .b16) = .subnormal ↔ 0 < M ∧ M < Rational.pow2 (-14)) ∧
      (classOf d (desc .b32) = .subnormal ↔ 0 < M ∧ M < Rational.pow2 (-126)) ∧
      (classOf d (desc .b64) = .subnormal ↔ 0 < M ∧ M < Rational.pow2 (-1022))) ∧
    (classOf d (desc .b64) = .subnormal ↔ E = 0 ∧ T ≠ 0) ∧
    classOf d (desc .b128) ≠ .subnormal

/-- R120: `ENCODE` leaves the encoded value in all of `PAT` and the class of the input in `CLS`. -/
def Obligations.EncodeLeavesThePatternOfVal : Prop :=
  ∀ s : State,
    (∀ (f : Fmt) (rm : RoundMode),
      exec (.encode f rm) s = .next { s with
        pat := Rational.encode s.val (desc f) rm, cls := Rational.classOf s.val (desc f), q := false } ∧
      regWrite 3#3 (BitVec.ofNat 64 (0x02 + 0x10 * fmtCode f + 0x40 * rmCode rm)) s =
        .next { s with pat := Rational.encode s.val (desc f) rm,
                       cls := Rational.classOf s.val (desc f), q := false } ∧
      (Rational.encode s.val (desc f) rm).toNat < 2 ^ patWidth (desc f)) ∧
    RefusesOtherWords 2#4
      [0x02#64, 0x12#64, 0x22#64, 0x32#64, 0x42#64, 0x52#64, 0x62#64, 0x72#64] s

/-- R129: the integer datapath computes `EncodeMag`, written over the rationals, for every sign,
magnitude, descriptor row and mode. -/
def Obligations.EncodeMagComputesTheRationalRule : Prop :=
  ∀ (s : Bool) (M : Mag) (F : Descriptor) (rm : RoundMode),
    encodeMag s M F rm = Rational.encodeMag s (Rational.magValue M) F rm

/-- R123: the arbiter, mode by mode; the two modes agree except on a tie with an even floor. -/
def Obligations.ArbiterRoundsExactly : Prop :=
  ∀ num den : Nat, 0 < den →
    let q : Rat := (num : Rat) / (den : Rat)
    let n : Nat := Nat.floor q
    let f : Rat := q - (n : Rat)
    arbiter num den .rha = (if f < 1 / 2 then n else n + 1) ∧
    arbiter num den .rha = Nat.floor (q + 1 / 2) ∧
    (f < 1 / 2 → arbiter num den .rne = n) ∧
    (1 / 2 < f → arbiter num den .rne = n + 1) ∧
    (f = 1 / 2 → arbiter num den .rne % 2 = 0 ∧
      (arbiter num den .rne = n ∨ arbiter num den .rne = n + 1)) ∧
    (arbiter num den .rha ≠ arbiter num den .rne ↔ f = 1 / 2 ∧ n % 2 = 0)

/-- R130: the guard and sticky form rounds `sig / 2^k` as R123 says. -/
def Obligations.GuardAndStickyFormRoundsExactly : Prop :=
  ∀ (sig : Nat) (k : Int) (rm : RoundMode),
    shiftRound sig k rm = Rational.round ((sig : Rat) / Rational.pow2 k) rm

/-- R132: the normalised significand and exponent of a finite non-zero word, the shift form of the two
branches, and the cut at `k = 54`. -/
def Obligations.ShiftFormEncodesAsTheRules : Prop :=
  ∀ (d : Word) (neg : Bool) (M : Rat), Rational.val64 d = .finite neg M →
    M = (shiftSig d : Rat) * Rational.pow2 (shiftExp d - 52) ∧
    2 ^ 52 ≤ shiftSig d ∧ shiftSig d < 2 ^ 53 ∧
    (∀ (f : Fmt) (rm : RoundMode), shiftEncode d (desc f) rm = Rational.encode d (desc f) rm) ∧
    (∀ (k : Int) (rm : RoundMode), 54 ≤ k → shiftRound (shiftSig d) k rm = 0)

/-- R131 (a): the sign bit of the pattern is the sign bit of the word. -/
def Obligations.EncoderPreservesTheSign : Prop :=
  ∀ (d : Word) (neg : Bool) (M : Rat), Rational.val64 d = .finite neg M →
    ∀ (f : Fmt) (rm : RoundMode), encodeKeepsSign d (desc f) rm

/-- R131 (b): only a NaN word gives a pattern with an all-ones exponent and a non-zero mantissa. -/
def Obligations.OnlyNaNEncodesToNaN : Prop :=
  ∀ (d : Word) (f : Fmt) (rm : RoundMode),
    IsNaNPattern (desc f) (encodeWord d (desc f) rm).toNat ↔ Rational.IsNaN d

/-- R131 (c), R159 (c): at binary64 the encoder and the decoder are the identity but for NaN. -/
def Obligations.Binary64ConversionIsTheIdentity : Prop :=
  ∀ (d : Word) (rm : RoundMode),
    (¬ Rational.IsNaN d →
      encode64IsIdentity d rm ∧
      (decodePattern (d.setWidth 128) (desc .b64) rm).word = d) ∧
    (Rational.IsNaN d →
      encode64IsCanonicalNaN d rm ∧
      (decodePattern (d.setWidth 128) (desc .b64) rm).word = 0x7FF8000000000000#64)

/-- R131 (d): at binary128 every finite non-zero word is encoded exactly, whatever the mode. -/
def Obligations.Binary128EncodeIsExact : Prop :=
  ∀ (d : Word) (neg : Bool) (M : Rat), Rational.val64 d = .finite neg M → ∀ rm : RoundMode,
    encode128IsExact d neg rm

/-- R131 (e): a magnitude that a finite non-zero pattern denotes is encoded to that pattern, in both
modes. -/
def Obligations.RepresentableMagnitudesEncodeExactly : Prop :=
  ∀ (f : Fmt) (b : Nat) (rm : RoundMode), FiniteNonZero (desc f) b → encodeReproduces (desc f) b rm

/-- R131 (f): for one sign, row and mode the encoder is monotone in the magnitude. -/
def Obligations.EncoderIsMonotone : Prop :=
  ∀ (s : Bool) (f : Fmt) (rm : RoundMode) (M₁ M₂ : Rat), 0 < M₁ → M₁ ≤ M₂ →
    encodeOrdered s (desc f) rm M₁ M₂

/-- R131 (g): at binary64 and binary128 the mode does not matter, and at the narrow formats only when
the discarded low bits of the significand are `1000...0`, `k` of them. -/
def Obligations.RoundingModeMattersOnlyOnTies : Prop :=
  ∀ d : Word,
    encodeModeFree d (desc .b64) ∧ encodeModeFree d (desc .b128) ∧
    ∀ f : Fmt, ¬ encodeModeFree d (desc f) → IsTie d (desc f)

/-- R150: `DECODE` leaves the value of the pattern in `VAL` and the class of the pattern in `CLS`. -/
def Obligations.DecodeLeavesTheValueOfPat : Prop :=
  ∀ s : State,
    (∀ (f : Fmt) (rm : RoundMode),
      exec (.decode f rm) s = .next { s with
        val := (Rational.decode s.pat (desc f) rm).1, cls := (Rational.decode s.pat (desc f) rm).2,
        q := false } ∧
      regWrite 3#3 (BitVec.ofNat 64 (0x03 + 0x10 * fmtCode f + 0x40 * rmCode rm)) s =
        .next { s with val := (Rational.decode s.pat (desc f) rm).1,
                       cls := (Rational.decode s.pat (desc f) rm).2, q := false }) ∧
    RefusesOtherWords 3#4
      [0x03#64, 0x13#64, 0x23#64, 0x33#64, 0x43#64, 0x53#64, 0x63#64, 0x73#64] s

/-- R159 (b): each of the five special patterns decodes to its constant, with its class, and that word
encodes to the pattern again. -/
def Obligations.SpecialPatternsAreFixpoints : Prop :=
  ∀ (f : Fmt) (rm rm' : RoundMode), let F := desc f
    ∀ x ∈ [(F.nan, 0x7FF8000000000000#64, Class.nan), (F.pinf, 0x7FF0000000000000#64, Class.pinf),
        (F.ninf, 0xFFF0000000000000#64, Class.ninf), (F.nzero, 0x8000000000000000#64, Class.nzero),
        (F.pzero, 0#64, Class.pzero)],
      decodePattern x.1 F rm = { word := x.2.1, cls := x.2.2 } ∧ encodeWord x.2.1 F rm' = x.1

/-- R154: an all-ones exponent with a non-zero mantissa reads as the one NaN word, whatever its sign and
payload; with a zero mantissa, as the infinity of its sign. -/
def Obligations.AllOnesExponentDecodesToNaNOrInfinity : Prop :=
  ∀ (p : Pattern) (f : Fmt) (rm : RoundMode), let F := desc f
    p.toNat / 2 ^ F.mbits % 2 ^ F.ebits = 2 ^ F.ebits - 1 →
      (p.toNat % 2 ^ F.mbits ≠ 0 →
        decodePattern p F rm = { word := 0x7FF8000000000000#64, cls := .nan }) ∧
      (p.toNat % 2 ^ F.mbits = 0 → decodePattern p F rm =
        if p.getLsbD (patWidth F - 1) then { word := 0xFFF0000000000000#64, cls := .ninf }
        else { word := 0x7FF0000000000000#64, cls := .pinf })

/-- R157: at binary16, binary32 and binary64 a finite non-zero pattern reads as the exact value of its
fields, whatever the mode, with the class of its branch (R153, R155). -/
def Obligations.NarrowPatternsDecodeExactly : Prop :=
  ∀ (p : Pattern) (f : Fmt) (rm : RoundMode), let F := desc f
    f ≠ .b128 → FiniteNonZero F (p.toNat % 2 ^ patWidth F) →
      Rational.val64 (decodePattern p F rm).word = .finite (p.getLsbD (patWidth F - 1))
        (Rational.patternMag (p.toNat / 2 ^ F.mbits % 2 ^ F.ebits) (p.toNat % 2 ^ F.mbits) F) ∧
      (decodePattern p F rm).cls =
        if p.toNat / 2 ^ F.mbits % 2 ^ F.ebits = 0 then .subnormal else .normal

/-- R159 (d): encoding what a pattern of the three narrower formats decodes to gives the pattern back,
but for the non-canonical NaN patterns, which give the canonical one. -/
def Obligations.EncodeInvertsDecodeOnPatterns : Prop :=
  ∀ (f : Fmt) (b : Nat) (rm rm' : RoundMode), let F := desc f
    f ≠ .b128 → b < 2 ^ patWidth F →
      (¬ NonCanonicalNaN F b →
        encodeWord (decodePattern (BitVec.ofNat 128 b) F rm).word F rm' = BitVec.ofNat 128 b) ∧
      (NonCanonicalNaN F b →
        encodeWord (decodePattern (BitVec.ofNat 128 b) F rm).word F rm' = F.nan)

/-- R170: `ROUND` leaves the round trip's pattern, value and class, and is `ENCODE` then `DECODE`. -/
def Obligations.RoundIsEncodeThenDecode : Prop :=
  ∀ s : State,
    (∀ (f : Fmt) (rm : RoundMode), ∃ t u,
      t = { s with pat := (Rational.roundTo s.val (desc f) rm).1,
                   val := (Rational.roundTo s.val (desc f) rm).2.1,
                   cls := (Rational.roundTo s.val (desc f) rm).2.2, q := false } ∧
      exec (.round f rm) s = .next t ∧
      regWrite 3#3 (BitVec.ofNat 64 (0x04 + 0x10 * fmtCode f + 0x40 * rmCode rm)) s = .next t ∧
      exec (.encode f rm) s = .next u ∧ exec (.decode f rm) u = .next t) ∧
    RefusesOtherWords 4#4
      [0x04#64, 0x14#64, 0x24#64, 0x34#64, 0x44#64, 0x54#64, 0x64#64, 0x74#64] s

/-- R172: a second `ROUND` with the same format, in either mode, changes nothing. -/
def Obligations.RoundIsIdempotent : Prop :=
  ∀ (f : Fmt) (rm rm' : RoundMode) (s : State), ∃ t,
    exec (.round f rm) s = .next t ∧ exec (.round f rm') t = .next t

/-- R173: `ISFLOAT` sets `Q` exactly when `VAL` equals its round trip as a value, reports the class of
the input, and writes nothing else. -/
def Obligations.IsfloatComparesValWithItsRoundTrip : Prop :=
  ∀ s : State,
    (∀ (f : Fmt) (rm : RoundMode), ∃ t,
      exec (.isfloat f rm) s = .next t ∧
      regWrite 3#3 (BitVec.ofNat 64 (0x05 + 0x10 * fmtCode f + 0x40 * rmCode rm)) s = .next t ∧
      (t.q = true ↔ Rational.ValEq s.val (Rational.roundTo s.val (desc f) rm).2.1) ∧
      t = { s with cls := Rational.classOf s.val (desc f), q := t.q }) ∧
    RefusesOtherWords 5#4
      [0x05#64, 0x15#64, 0x25#64, 0x35#64, 0x45#64, 0x55#64, 0x65#64, 0x75#64] s

/-- R174: value equality. -/
def Obligations.ValueEqualityIsThatOfDoubles : Prop :=
  ∀ a b : Word,
    (Rational.IsNaN a ∨ Rational.IsNaN b → valEq a b = false) ∧
    (¬ Rational.IsNaN a → ¬ Rational.IsNaN b →
      (a = 0#64 ∨ a = 0x8000000000000000#64) ∧ (b = 0#64 ∨ b = 0x8000000000000000#64) →
      valEq a b = true) ∧
    (¬ Rational.IsNaN a → ¬ Rational.IsNaN b →
      ¬ ((a = 0#64 ∨ a = 0x8000000000000000#64) ∧ (b = 0#64 ∨ b = 0x8000000000000000#64)) →
      (valEq a b = true ↔ a = b))

/-- R175: the two modes give the same `Q` and `CLS`, and `Q` says that `VAL` is a value of the format: a
zero, an infinity, or the value of a finite pattern. -/
def Obligations.PredicateIgnoresTheRoundingMode : Prop :=
  ∀ (f : Fmt) (s : State), let F := desc f
    ∃ t, exec (.isfloat f .rha) s = .next t ∧ exec (.isfloat f .rne) s = .next t ∧
      (t.q = true ↔
        (∃ neg, Rational.val64 s.val = .zero neg ∨ Rational.val64 s.val = .inf neg) ∨
        (∃ b, FiniteNonZero F b ∧ Rational.val64 s.val = .finite (b.testBit (patWidth F - 1))
          (Rational.patternMag (b / 2 ^ F.mbits % 2 ^ F.ebits) (b % 2 ^ F.mbits) F)))

/-- R185: `CLRERR` zeroes the latch, `CLS` and `Q`, so `STATUS` then reads zero; any extra bit is refused
and the latch not cleared. -/
def Obligations.ClrerrZeroesStatus : Prop :=
  ∀ s : State,
    exec .clrerr s = .next { s with err := .none, cls := .none, q := false } ∧
    regWrite 3#3 0x0000000000000007#64 s = .next { s with err := .none, cls := .none, q := false } ∧
    (regRead 4#3 { s with err := .none, cls := .none, q := false }).1 = 0#64 ∧
    RefusesOtherWords 7#4 [0x0000000000000007#64] s

/-- R195: no value of `VAL` or `PAT` makes a command fail; every command completes. -/
def Obligations.NoOperandValueStopsACommand : Prop :=
  ∀ (i : Instr) (s : State), ∃ t, exec i s = .next t ∧ (WellFormed i = true → i ≠ .clrerr → t.err = s.err)

/-- R231: from a zero `ERR`, `ERR` is zero at the end of a run exactly when nothing in it was refused,
provided nothing clears the latch after a refusal.  The run is taken from the model's own field
`pending` (log entry 1, a DESIGN CHOICE), which `Reset` keeps (log entry 3, DEDUCED). -/
def Obligations.ErrZeroAtTheEndMeansNothingWasRefused : Prop :=
  ∀ (ts : List Transaction) (s : State), s.err = .none → NoClearAfterRefusal ts →
    ∃ t, Host.Core.run Sys2Proof.core ts.length { s with pending := ts } = .next t ∧
      (t.err = .none ↔ Clean ts)

/-- An invariant every step keeps: `STATUS` never shows a set predicate bit with the class of a NaN or
with no class (from R27, R29, R173 and R53).  The step with nothing pending is the model's (log entries
1, a DESIGN CHOICE, and 2, DEDUCED). -/
def Obligations.StepKeepsStatusLegal : Prop :=
  ∀ s : State, StatusLegal s → ∃ t, step s = .next t ∧ StatusLegal t

/-- The invariant holds at reset. -/
def Obligations.ResetStatusIsLegal : Prop := StatusLegal State.reset

/-- R82, R232: what the reads of the six pseudo-instructions return, from any state.  The transactions are
taken from, and the words found in, the model's own fields `pending` and `returned` (log entry 1, a
DESIGN CHOICE). -/
def Obligations.PseudoInstructionsReturnTheirResults : Prop :=
  ∀ (s : State) (x hi lo : Word),
    let run := fun p : Pseudo => Host.Core.run Sys2Proof.core (expand p).length
      { s with pending := expand p, returned := [] }
    (∃ t, run (.f16round x) = .next t ∧ t.returned = [(Rational.roundTo x (desc .b16) .rha).2.1]) ∧
    (∃ t, run (.fround x) = .next t ∧ t.returned = [(Rational.roundTo x (desc .b32) .rha).2.1]) ∧
    (∃ t w, run (.isfloat16 x) = .next t ∧ t.returned = [w] ∧
      (w.getLsbD 3 = true ↔ Rational.ValEq x (Rational.roundTo x (desc .b16) .rha).2.1)) ∧
    (∃ t w, run (.isfloat32 x) = .next t ∧ t.returned = [w] ∧
      (w.getLsbD 3 = true ↔ Rational.ValEq x (Rational.roundTo x (desc .b32) .rha).2.1)) ∧
    (∃ t, run (.enc128 x) = .next t ∧
      t.returned = [(Rational.encode x (desc .b128) .rha).extractLsb' 0 64,
                    (Rational.encode x (desc .b128) .rha).extractLsb' 64 64]) ∧
    (∃ t, run (.dec128 hi lo) = .next t ∧
      t.returned = [(Rational.decode (hi ++ lo) (desc .b128) .rha).1])
end

