-- ==== Sys2Proof/Laws/Codec.lean ====
section
/-! SUPPORT. What the codec's shared functions can answer, said once: the arbiter, the carry, the
compositor, the reading of a word, the classifier. -/

namespace Sys2Proof.Machine

/-- The arbiter answers the floor or the next integer. -/
theorem arbiter_cases (num den : Nat) (rm : RoundMode) :
    arbiter num den rm = num / den ∨ arbiter num den rm = num / den + 1 := by
  cases rm <;> simp only [arbiter] <;> split_ifs <;> simp

/-- Nothing is rounded when the division is exact. -/
theorem arbiter_exact {num den : Nat} (hd : 0 < den) (h : num % den = 0) (rm : RoundMode) :
    arbiter num den rm = num / den := by
  cases rm <;> simp [arbiter, h, hd]

/-- A quotient at most an integer is rounded to at most that integer. -/
theorem arbiter_le {num den n : Nat} (hd : 0 < den) (h : num ≤ n * den) (rm : RoundMode) :
    arbiter num den rm ≤ n := by
  rcases h.lt_or_eq with h | rfl
  · have := (Nat.div_lt_iff_lt_mul hd).2 h
    rcases arbiter_cases num den rm with e | e <;> omega
  · rw [arbiter_exact hd (Nat.mul_mod_left n den), Nat.mul_div_cancel _ hd]

/-- After the carry the mantissa fits its field. -/
theorem carry_mant_lt {F : Descriptor} {x : Fields} (h : x.mant ≤ 2 ^ F.mbits) :
    (carry F x).mant < 2 ^ F.mbits := by
  unfold carry
  split
  · positivity
  · omega

/-- The compositor answers the signed infinity or packs the carried fields, which then are in range. -/
theorem compositor_cases (F : Descriptor) (s : Bool) (x : Fields) :
    (2 ^ F.ebits - 1 ≤ (carry F x).expf ∧
      compositor F s x = if s then F.ninf else F.pinf) ∨
    ((carry F x).expf < 2 ^ F.ebits - 1 ∧
      compositor F s x = pack F s (carry F x).expf (carry F x).mant) := by
  unfold compositor
  by_cases h : 2 ^ F.ebits - 1 ≤ (carry F x).expf
  · exact .inl ⟨h, by simp [h]⟩
  · exact .inr ⟨by omega, by simp [h]⟩

/-- Packed fields in range are their positional sum (R126). -/
theorem pack_eq_sum {F : Descriptor} (s : Bool) {expf mant : Nat} (he : expf < 2 ^ F.ebits)
    (hm : mant < 2 ^ F.mbits) :
    pack F s expf mant =
      BitVec.ofNat 128 (s.toNat * 2 ^ (F.ebits + F.mbits) + expf * 2 ^ F.mbits + mant) := by
  have h1 : expf <<< F.mbits ||| mant = expf * 2 ^ F.mbits + mant := by
    rw [← Nat.shiftLeft_add_eq_or_of_lt hm, Nat.shiftLeft_eq]
  have h2 : expf * 2 ^ F.mbits + mant < 2 ^ (F.ebits + F.mbits) := by
    rw [pow_add]
    nlinarith
  rw [pack, Nat.lor_assoc, h1, ← Nat.shiftLeft_add_eq_or_of_lt h2, Nat.shiftLeft_eq]
  congr 1
  ring

/-- The classifier never answers `NONE` (R111). -/
theorem classOf_ne_none (d : Word) (F : Descriptor) : classOf d F ≠ .none := by
  unfold classOf
  cases val64 d <;> simp <;> split <;> simp

/-- The classifier answers `NAN` on NaN words alone. -/
theorem classOf_eq_nan_iff (d : Word) (F : Descriptor) : classOf d F = .nan ↔ isNaNWord d = true := by
  unfold classOf isNaNWord
  cases val64 d <;> simp <;> split <;> simp

/-- A word that equals anything as a value is no NaN word (R174). -/
theorem not_isNaNWord_of_valEq {a b : Word} (h : valEq a b = true) : isNaNWord a = false := by
  unfold valEq at h
  split at h
  · cases h
  · simp_all

/-- A word whose value is not finite and non-zero is encoded without the arbiter, so the mode does not
matter to it (R121). -/
theorem encodeModeFree_of_special {d : Word} (h : ∀ neg M, val64 d ≠ .finite neg M) (F : Descriptor) :
    encodeModeFree d F := by
  unfold encodeModeFree encodeWord
  cases hv : val64 d with
  | finite neg M => exact absurd hv (h neg M)
  | _ => rfl

/-- The order of the encodings is transitive (R131 (f)). -/
theorem encodeOrdered_trans {s : Bool} {F : Descriptor} {rm : RoundMode} {M₁ M₂ M₃ : Rat}
    (h₁ : encodeOrdered s F rm M₁ M₂) (h₂ : encodeOrdered s F rm M₂ M₃) :
    encodeOrdered s F rm M₁ M₃ := Nat.le_trans h₁ h₂

/-- The decoder reads only the format's bits of `PAT` (R151). -/
theorem decodePattern_congr {p p' : Pattern} {F : Descriptor}
    (h : p.toNat % 2 ^ patWidth F = p'.toNat % 2 ^ patWidth F) (rm : RoundMode) :
    decodePattern p F rm = decodePattern p' F rm := by
  simp only [decodePattern, h]

end Sys2Proof.Machine
end

