-- ==== Sys2Proof/Laws/Decode.lean ====
section
/-! SUPPORT. What the decoder can answer, said once, and the codes of the operand fields. -/

namespace Sys2Proof

/-- The decoder's outcomes, each with the check of R76 that gives it. -/
theorem decode_cases (w : Word) :
    (opOf (opField w) = none ∧ decode w = .refused .illegalOpcode) ∨
    (∃ o, opOf (opField w) = some o ∧ w &&& opMask o ≠ opMatch o ∧
      decode w = .refused .reservedField) ∨
    (opOf (opField w) = some .desc ∧ w &&& opMask .desc = opMatch .desc ∧
      8 < (selField w).toNat ∧ decode w = .refused .reservedField) ∨
    (∃ o, opOf (opField w) = some o ∧ w &&& opMask o = opMatch o ∧
      (o = .desc → (selField w).toNat ≤ 8) ∧ decode w = .accepted (operands o w)) := by
  unfold decode
  cases h : opOf (opField w) with
  | none => exact .inl ⟨rfl, rfl⟩
  | some o =>
    simp only
    split
    · exact .inr (.inl ⟨o, rfl, ‹_›, rfl⟩)
    · rename_i hm
      rw [not_not] at hm
      split
      · rename_i hd
        obtain ⟨rfl, hs⟩ := hd
        exact .inr (.inr (.inl ⟨rfl, hm, hs, rfl⟩))
      · rename_i hd
        exact .inr (.inr (.inr ⟨o, rfl, hm, fun ho => by
          by_contra hc; exact hd ⟨ho, by omega⟩, rfl⟩))

/-- The decoder never refuses with the code `NONE`. -/
theorem decode_refused_ne_none {w : Word} {c : ErrCode} (h : decode w = .refused c) : c ≠ .none := by
  rcases decode_cases w with ⟨_, h'⟩ | ⟨_, _, _, h'⟩ | ⟨_, _, _, h'⟩ | ⟨_, _, _, _, h'⟩ <;>
    rw [h'] at h <;> cases h <;> decide

@[simp] theorem fmtOf_fmtCode (f : Fmt) : fmtOf (BitVec.ofNat 2 (fmtCode f)) = f := by
  cases f <;> rfl

@[simp] theorem rmOf_rmCode (r : RoundMode) : rmOf (BitVec.ofNat 1 (rmCode r)) = r := by
  cases r <;> rfl

@[simp] theorem fmtCode_fmtOf (b : BitVec 2) : fmtCode (fmtOf b) = b.toNat := by
  revert b; decide

@[simp] theorem rmCode_rmOf (b : BitVec 1) : rmCode (rmOf b) = b.toNat := by
  revert b; decide

theorem fmtCode_lt (f : Fmt) : fmtCode f < 4 := by cases f <;> decide

theorem rmCode_lt (r : RoundMode) : rmCode r < 2 := by cases r <;> decide

theorem tableWord_toNat (w : Word) : tableWord 64 w.toNat = w := by
  rw [tableWord, Nat.mod_eq_of_lt w.isLt, BitVec.ofNat_toNat, BitVec.setWidth_eq]

end Sys2Proof
end

