-- ==== Sys2Proof/Laws/Magnitude.lean ====
section
/-! SUPPORT. The exact magnitudes: the integer operations of Machine/Operands.lean and Machine/Encoder.lean
against the rationals they stand for. -/

namespace Sys2Proof.Machine.Rational

theorem pow2_pos (k : Int) : 0 < pow2 k := zpow_pos (by norm_num) k

theorem pow2_ne_zero (k : Int) : pow2 k ≠ 0 := (pow2_pos k).ne'

theorem pow2_add (a b : Int) : pow2 (a + b) = pow2 a * pow2 b := zpow_add₀ (by norm_num) a b

theorem pow2_sub (a b : Int) : pow2 (a - b) = pow2 a / pow2 b := zpow_sub₀ (by norm_num) a b

theorem pow2_natCast (n : Nat) : pow2 (n : Int) = ((2 ^ n : Nat) : Rat) := by
  simp [pow2]

theorem magValue_nonneg (M : Mag) : 0 ≤ magValue M :=
  mul_nonneg (by positivity) (pow2_pos _).le

theorem magValue_pos {M : Mag} (h : M.sig ≠ 0) : 0 < magValue M :=
  mul_pos (by exact_mod_cast Nat.pos_of_ne_zero h) (pow2_pos _)

/-- `2^(a - b)` as the quotient of the two natural powers the model scales by. -/
theorem pow2_sub_toNat (a b : Int) :
    pow2 (a - b) = ((2 ^ (a - b).toNat : Nat) : Rat) / ((2 ^ (b - a).toNat : Nat) : Rat) := by
  rw [← pow2_natCast, ← pow2_natCast, ← pow2_sub]
  congr 1
  omega

/-- Dividing a magnitude by a power of two, as a fraction of natural numbers. -/
theorem magValue_div_pow2 (M : Mag) (j : Int) :
    magValue M / pow2 j =
      ((M.sig * 2 ^ (M.exp - j).toNat : Nat) : Rat) / ((2 ^ (j - M.exp).toNat : Nat) : Rat) := by
  rw [magValue, mul_div_assoc, ← pow2_sub, pow2_sub_toNat, Nat.cast_mul, mul_div_assoc]

/-- The model's comparison with a power of two is the rationals'. -/
theorem magBelow_iff (M : Mag) (c : Int) : magBelow M c = true ↔ magValue M < pow2 c := by
  have hd : (0 : Rat) < ((2 ^ (c - M.exp).toNat : Nat) : Rat) := by positivity
  rw [← div_lt_one (pow2_pos c), magValue_div_pow2, div_lt_one hd, Nat.cast_lt]
  simp [magBelow]

/-- The model's exponent is `floor(log2(M))` (R9). -/
theorem magLog2_eq_log {M : Mag} (h : M.sig ≠ 0) : magLog2 M = Int.log 2 (magValue M) := by
  have hp : pow2 (Nat.log2 M.sig : Int) ≤ (M.sig : Rat) := by
    rw [pow2_natCast]; exact_mod_cast Nat.log2_self_le h
  have hq : (M.sig : Rat) < pow2 ((Nat.log2 M.sig : Int) + 1) := by
    have : ((Nat.log2 M.sig : Int) + 1) = ((Nat.log2 M.sig + 1 : Nat) : Int) := by push_cast; rfl
    rw [this, pow2_natCast]
    exact_mod_cast Nat.lt_log2_self
  apply le_antisymm
  · rw [← Int.zpow_le_iff_le_log (by norm_num) (magValue_pos h)]
    have := mul_le_mul_of_nonneg_right hp (pow2_pos M.exp).le
    rw [← pow2_add] at this
    exact_mod_cast this
  · rw [← Int.lt_add_one_iff, ← Int.lt_zpow_iff_log_lt (by norm_num) (magValue_pos h)]
    have := mul_lt_mul_of_pos_right hq (pow2_pos M.exp)
    rw [← pow2_add, add_right_comm] at this
    exact_mod_cast this

/-- What is left of a magnitude below its leading one. -/
theorem magFraction_value {M : Mag} (h : M.sig ≠ 0) :
    magValue (magFraction M) = magValue M - pow2 (magLog2 M) := by
  have hle := Nat.log2_self_le h
  simp only [magValue, magFraction, magLog2, pow2_add, pow2_natCast, Nat.cast_sub hle]
  ring

end Sys2Proof.Machine.Rational
end

