-- ==== Sys2Proof/Laws/State.lean ====
section
/-! SUPPORT. One lemma per field and named update of `State`, true by `rfl` or by the latch's two cases. -/

namespace Sys2Proof.Machine

section Complete
variable (c : Class) (q : Bool) (s : State)

@[simp] theorem complete_val : (complete c q s).val = s.val := rfl
@[simp] theorem complete_pat : (complete c q s).pat = s.pat := rfl
@[simp] theorem complete_cls : (complete c q s).cls = c := rfl
@[simp] theorem complete_q : (complete c q s).q = q := rfl
@[simp] theorem complete_err : (complete c q s).err = s.err := rfl
@[simp] theorem complete_pending : (complete c q s).pending = s.pending := rfl
@[simp] theorem complete_returned : (complete c q s).returned = s.returned := rfl

end Complete

section ClearErr
variable (s : State)

@[simp] theorem clearErr_val : (clearErr s).val = s.val := rfl
@[simp] theorem clearErr_pat : (clearErr s).pat = s.pat := rfl
@[simp] theorem clearErr_cls : (clearErr s).cls = s.cls := rfl
@[simp] theorem clearErr_q : (clearErr s).q = s.q := rfl
@[simp] theorem clearErr_err : (clearErr s).err = .none := rfl
@[simp] theorem clearErr_pending : (clearErr s).pending = s.pending := rfl
@[simp] theorem clearErr_returned : (clearErr s).returned = s.returned := rfl

end ClearErr

section Refuse
variable (code : ErrCode) (s : State)

@[simp] theorem refuse_val : (refuse code s).val = s.val := by unfold refuse; split <;> rfl
@[simp] theorem refuse_pat : (refuse code s).pat = s.pat := by unfold refuse; split <;> rfl
@[simp] theorem refuse_cls : (refuse code s).cls = s.cls := by unfold refuse; split <;> rfl
@[simp] theorem refuse_q : (refuse code s).q = s.q := by unfold refuse; split <;> rfl
@[simp] theorem refuse_pending : (refuse code s).pending = s.pending := by
  unfold refuse; split <;> rfl
@[simp] theorem refuse_returned : (refuse code s).returned = s.returned := by
  unfold refuse; split <;> rfl

/-- The latch keeps the first cause. -/
@[simp] theorem refuse_err :
    (refuse code s).err = if s.err = .none then code else s.err := by
  unfold refuse; split <;> rfl

end Refuse

section ResetBlock
variable (s : State)

@[simp] theorem resetBlock_val : (resetBlock s).val = 0#64 := rfl
@[simp] theorem resetBlock_pat : (resetBlock s).pat = 0#128 := rfl
@[simp] theorem resetBlock_cls : (resetBlock s).cls = .none := rfl
@[simp] theorem resetBlock_q : (resetBlock s).q = false := rfl
@[simp] theorem resetBlock_err : (resetBlock s).err = .none := rfl
@[simp] theorem resetBlock_pending : (resetBlock s).pending = s.pending := rfl
@[simp] theorem resetBlock_returned : (resetBlock s).returned = s.returned := rfl

end ResetBlock

section WithFetchWord
variable (s : State) (nbits w : Nat)

@[simp] theorem withFetchWord_val : (s.withFetchWord nbits w).val = s.val := rfl
@[simp] theorem withFetchWord_pat : (s.withFetchWord nbits w).pat = s.pat := rfl
@[simp] theorem withFetchWord_cls : (s.withFetchWord nbits w).cls = s.cls := rfl
@[simp] theorem withFetchWord_q : (s.withFetchWord nbits w).q = s.q := rfl
@[simp] theorem withFetchWord_err : (s.withFetchWord nbits w).err = s.err := rfl
@[simp] theorem withFetchWord_returned : (s.withFetchWord nbits w).returned = s.returned := rfl
@[simp] theorem withFetchWord_pending : (s.withFetchWord nbits w).pending =
    .regWrite 3#3 (tableWord nbits w) :: s.pending := rfl

end WithFetchWord

end Sys2Proof.Machine
end

