-- ==== Sys2Proof/Laws/Ops.lean ====
section
/-! SUPPORT. What each shared operation over registers, slots and transactions can do, said once. -/

namespace Sys2Proof.Machine

/-- Either the latch was free and takes the code, or nothing at all happens. -/
theorem refuse_cases (code : ErrCode) (s : State) :
    (s.err = .none ∧ refuse code s = { s with err := code }) ∨
      (s.err ≠ .none ∧ refuse code s = s) := by
  unfold refuse
  split
  · exact .inl ⟨‹_›, rfl⟩
  · exact .inr ⟨‹_›, rfl⟩

/-- A second refusal adds nothing to a first one with a real code. -/
theorem refuse_refuse {code : ErrCode} (h : code ≠ .none) (code' : ErrCode) (s : State) :
    refuse code' (refuse code s) = refuse code s := by
  rcases refuse_cases code s with ⟨_, h2⟩ | ⟨h1, h2⟩
  · rw [h2]; simp [refuse, h]
  · rw [h2]; simp [refuse, h1]

/-- The joined halves as a number. -/
theorem patJoin_toNat (hi lo : Word) :
    (patJoin hi lo).toNat = hi.toNat * 2 ^ 64 + lo.toNat := by
  rw [patJoin, BitVec.toNat_append, ← Nat.shiftLeft_add_eq_or_of_lt lo.isLt, Nat.shiftLeft_eq]

@[simp] theorem patLo_patJoin (hi lo : Word) : patLo (patJoin hi lo) = lo := by
  apply BitVec.eq_of_toNat_eq
  have h1 := hi.isLt
  have h2 := lo.isLt
  rw [patLo, BitVec.extractLsb'_toNat, patJoin_toNat, Nat.shiftRight_zero]
  omega

@[simp] theorem patHi_patJoin (hi lo : Word) : patHi (patJoin hi lo) = hi := by
  apply BitVec.eq_of_toNat_eq
  have h1 := hi.isLt
  have h2 := lo.isLt
  rw [patHi, BitVec.extractLsb'_toNat, patJoin_toNat, Nat.shiftRight_eq_div_pow]
  omega

@[simp] theorem patJoin_halves (p : Pattern) : patJoin (patHi p) (patLo p) = p := by
  apply BitVec.eq_of_toNat_eq
  have hp := p.isLt
  rw [patJoin_toNat]
  simp only [patHi, patLo, BitVec.extractLsb'_toNat, Nat.shiftRight_eq_div_pow]
  omega

/-- The register map on every index: five mapped slots and three unmapped. -/
theorem slotOf_cases (i : Index) :
    (i = 0#3 ∧ slotOf i = .val) ∨ (i = 1#3 ∧ slotOf i = .patLo) ∨ (i = 2#3 ∧ slotOf i = .patHi) ∨
      (i = 3#3 ∧ slotOf i = .cmd) ∨ (i = 4#3 ∧ slotOf i = .status) ∨
      (5 ≤ i.toNat ∧ slotOf i = .unmapped) := by
  revert i; decide

/-- A read either leaves the state alone or is refused. -/
theorem regRead_state (i : Index) (s : State) :
    ((regRead i s).2 = s ∧ slotOf i ≠ .unmapped) ∨
      (regRead i s = (0#64, refuse .badAccess s) ∧ slotOf i = .unmapped) := by
  unfold regRead
  cases slotOf i <;> simp

/-- What a write can do: set an operand register, run a command, or be refused. -/
theorem regWrite_cases (i : Index) (v : Word) (s : State) :
    (i = 0#3 ∧ regWrite i v s = .next { s with val := v }) ∨
    (i = 1#3 ∧ regWrite i v s = .next { s with pat := patJoin (patHi s.pat) v }) ∨
    (i = 2#3 ∧ regWrite i v s = .next { s with pat := patJoin v (patLo s.pat) }) ∨
    (i = 3#3 ∧ ∃ c, decode v = .accepted c ∧ regWrite i v s = exec c s) ∨
    (i = 3#3 ∧ ∃ e, decode v = .refused e ∧ regWrite i v s = .next (refuse e s)) ∨
    (4 ≤ i.toNat ∧ regWrite i v s = .next (refuse .badAccess s)) := by
  rcases slotOf_cases i with ⟨h, hs⟩ | ⟨h, hs⟩ | ⟨h, hs⟩ | ⟨h, hs⟩ | ⟨h, hs⟩ | ⟨h, hs⟩
  · exact .inl ⟨h, by simp [regWrite, hs]⟩
  · exact .inr (.inl ⟨h, by simp [regWrite, hs]⟩)
  · exact .inr (.inr (.inl ⟨h, by simp [regWrite, hs]⟩))
  · cases hd : decode v with
    | accepted c =>
      exact .inr (.inr (.inr (.inl ⟨h, c, rfl, by simp [regWrite, hs, command, hd]⟩)))
    | refused e =>
      exact .inr (.inr (.inr (.inr (.inl ⟨h, e, rfl, by simp [regWrite, hs, command, hd]⟩))))
  · exact .inr (.inr (.inr (.inr (.inr ⟨by simp [h], by simp [regWrite, hs]⟩))))
  · exact .inr (.inr (.inr (.inr (.inr ⟨by omega, by simp [regWrite, hs]⟩))))

/-- A step with a transaction pending delivers it; with none it leaves the state alone. -/
theorem step_cases (s : State) :
    (s.pending = [] ∧ step s = .next s) ∨
      ∃ t ts, s.pending = t :: ts ∧ step s = deliver t { s with pending := ts } := by
  unfold step advance
  cases h : s.pending with
  | nil => exact .inl ⟨rfl, rfl⟩
  | cons t ts => exact .inr ⟨t, ts, rfl, rfl⟩

section Meanings
variable (f : Fmt) (rm : RoundMode) (s : State)

/-! The arms of `exec`, each as the meaning it calls. -/

theorem exec_classify : exec (.classify f) s = .next (complete (classOf s.val (desc f)) false s) :=
  rfl

theorem exec_encode : exec (.encode f rm) s = .next (complete (classOf s.val (desc f)) false
    { s with pat := encodeWord s.val (desc f) rm }) := rfl

theorem exec_decode : exec (.decode f rm) s = .next (complete (decodePattern s.pat (desc f) rm).cls
    false { s with val := (decodePattern s.pat (desc f) rm).word }) := rfl

theorem exec_round : exec (.round f rm) s = .next (complete (roundTo s.val (desc f) rm).2.cls false
    { s with pat := (roundTo s.val (desc f) rm).1, val := (roundTo s.val (desc f) rm).2.word }) := rfl

theorem exec_isfloat : exec (.isfloat f rm) s = .next (complete (classOf s.val (desc f))
    (valEq s.val (roundTo s.val (desc f) rm).2.word) s) := rfl

theorem exec_clrerr : exec .clrerr s = .next (complete .none false (clearErr s)) := rfl

/-- `DESC` delivers a field, or its selector is reserved and it is refused. -/
theorem exec_desc_cases (sel : BitVec 4) :
    (∃ v, descField (desc f) sel = some v ∧
      exec (.desc f sel) s = .next (complete .none false { s with pat := v })) ∨
    (8 < sel.toNat ∧ exec (.desc f sel) s = .next (refuse .reservedField s)) := by
  change (∃ v, _ ∧ execDesc f sel s = _) ∨ (_ ∧ execDesc f sel s = _)
  unfold execDesc
  cases h : descField (desc f) sel with
  | some v => exact .inl ⟨v, rfl, rfl⟩
  | none =>
    refine .inr ⟨?_, rfl⟩
    revert h; revert sel
    cases f <;> decide

end Meanings

end Sys2Proof.Machine
end

