-- ==== Sys2Proof/Laws/PerInstr.lean ====
section
/-! SUPPORT. Statements made for each command as syntax, one lemma per constructor. -/

namespace Sys2Proof.Laws.MatchesRow

/-- The opcode-table row of a command. -/
def row : Instr → Op
  | .classify _ => .classify
  | .encode _ _ => .encode
  | .decode _ _ => .decode
  | .round _ _ => .round
  | .isfloat _ _ => .isfloat
  | .desc _ _ => .desc
  | .clrerr => .clrerr

/-- A command's word equals `match` in every bit of its row's `mask` (R83), whatever its operands. -/
def Statement (i : Instr) : Prop := encode i &&& opMask (row i) = opMatch (row i)

theorem classify (f : Fmt) : Statement (.classify f) := by cases f <;> unfold Statement <;> decide

theorem encode (f : Fmt) (r : RoundMode) : Statement (.encode f r) := by
  cases f <;> cases r <;> unfold Statement <;> decide

theorem decode (f : Fmt) (r : RoundMode) : Statement (.decode f r) := by
  cases f <;> cases r <;> unfold Statement <;> decide

theorem round (f : Fmt) (r : RoundMode) : Statement (.round f r) := by
  cases f <;> cases r <;> unfold Statement <;> decide

theorem isfloat (f : Fmt) (r : RoundMode) : Statement (.isfloat f r) := by
  cases f <;> cases r <;> unfold Statement <;> decide

theorem desc (f : Fmt) (sel : BitVec 4) : Statement (.desc f sel) := by
  unfold Statement
  revert sel
  cases f <;> decide

theorem clrerr : Statement .clrerr := by unfold Statement; decide

end Sys2Proof.Laws.MatchesRow
end

