-- ==== Sys2Proof/Tests/Slice0.lean ====
section
/-! SUPPORT. The model's own tests.  Every expected value is the spec's: the vectors of
spec/95_test_vectors.md, whose section each test names, or a word written out from R70's fields.  The
`witness_` theorems show states and operands that meet the hypotheses of the statements. -/

open Sys2Proof Sys2Proof.Machine

namespace Sys2Proof.Tests

/-! ### WellFormed: the one check, and an ill-formed term it refuses -/

theorem test_reserved_selector_is_ill_formed : WellFormed (.desc .b16 9#4) = false := by decide

theorem test_last_selector_is_well_formed : WellFormed (.desc .b128 8#4) = true := by decide

/-! ### Decoding: one word for each command, written out bit by bit from R70

The groups are bits 63:12, `SEL`, bit 7, `RM`, `FMT`, `OP`. -/

/-- The word of the six groups. -/
def wordOf (high : BitVec 52) (sel : BitVec 4) (b7 rm : BitVec 1) (fmt : BitVec 2) (op : BitVec 4) :
    Word := high ++ sel ++ b7 ++ rm ++ fmt ++ op

theorem test_decode_classify :
    decode (wordOf 0#52 0b0000#4 0b0#1 0b0#1 0b01#2 0b0001#4) = .accepted (.classify .b32) := by decide

theorem test_decode_encode :
    decode (wordOf 0#52 0b0000#4 0b0#1 0b1#1 0b00#2 0b0010#4) = .accepted (.encode .b16 .rne) := by decide

theorem test_decode_decode :
    decode (wordOf 0#52 0b0000#4 0b0#1 0b0#1 0b11#2 0b0011#4) = .accepted (.decode .b128 .rha) := by decide

theorem test_decode_round :
    decode (wordOf 0#52 0b0000#4 0b0#1 0b1#1 0b01#2 0b0100#4) = .accepted (.round .b32 .rne) := by decide

theorem test_decode_isfloat :
    decode (wordOf 0#52 0b0000#4 0b0#1 0b0#1 0b10#2 0b0101#4) = .accepted (.isfloat .b64 .rha) := by decide

theorem test_decode_desc :
    decode (wordOf 0#52 0b0010#4 0b0#1 0b0#1 0b11#2 0b0110#4) = .accepted (.desc .b128 2#4) := by decide

theorem test_decode_clrerr :
    decode (wordOf 0#52 0b0000#4 0b0#1 0b0#1 0b00#2 0b0111#4) = .accepted .clrerr := by decide

/-- R199: the opcode is checked before the reserved bits. -/
theorem test_decode_opcode_before_reserved : decode 0x80#64 = .refused .illegalOpcode := by decide

theorem test_decode_table_word : decodeTableWord 8 0x54 = some (.round .b32 .rne) := by decide

/-! ### One step of each command -/

/-- The state after an outcome that is a next state. -/
def after (o : Host.Outcome State Fault Refusal) : Option State :=
  match o with
  | .next s => some s
  | _ => none

/-- `VAL = v`, `PAT = p`, and `STATUS` as spec/95 section 2.7 starts: `CLS = 6`, `Q = 1`, `ERR = 0`. -/
def start (v : Word) (p : Pattern) : State :=
  { State.reset with val := v, pat := p, cls := .normal, q := true }

/-- The state after one write of `w` to `CMD`. -/
def ran (v : Word) (p : Pattern) (w : Nat) : Option State :=
  after (step ((start v p).withFetchWord 64 w))

/-- 2.2: `2^-20` is `SUBNORMAL` relative to binary16. -/
theorem test_classify_subnormal :
    ran 0x3EB0000000000000#64 5#128 0x01 =
      some { start 0x3EB0000000000000#64 5#128 with cls := .subnormal, q := false } := by
  decide +kernel

/-- 2.2: exactly at the cutoff is `NORMAL`. -/
theorem test_classify_cutoff_is_normal :
    ran 0x3F10000000000000#64 5#128 0x01 =
      some { start 0x3F10000000000000#64 5#128 with cls := .normal, q := false } := by
  decide +kernel

/-- 2.3: 2047.9 in binary16, the carry from an odd exponent field. -/
theorem test_encode_carry :
    ran 0x409FFF999999999A#64 (BitVec.allOnes 128) 0x02 =
      some { start 0x409FFF999999999A#64 0x6800#128 with cls := .normal, q := false } := by
  decide +kernel

/-- 2.3: `-2^-25` in binary16 with ties to even gives the pattern of `-0`. -/
theorem test_encode_tie_to_even_underflow :
    ran 0xBE60000000000000#64 (BitVec.allOnes 128) 0x42 =
      some { start 0xBE60000000000000#64 0x8000#128 with cls := .subnormal, q := false } := by
  decide +kernel

/-- 2.4: bits above the width are ignored. -/
theorem test_decode_ignores_high_bits :
    ran 7#64 0xFFFFFFFFFFFFFFFFFFFFFFFFFFFF4248#128 0x03 =
      some { start 0x4009200000000000#64 0xFFFFFFFFFFFFFFFFFFFFFFFFFFFF4248#128 with
        cls := .normal, q := false } := by
  decide +kernel

/-- 2.4: `-2^-1075` in binary128 is a tie at the bottom of binary64. -/
theorem test_decode_narrows_tie_away :
    ran 7#64 0xBBCC0000000000000000000000000000#128 0x33 =
      some { start 0x8000000000000001#64 0xBBCC0000000000000000000000000000#128 with
        cls := .normal, q := false } := by
  decide +kernel

/-- 2.5: one million overflows binary16; `CLS` is the class of the result. -/
theorem test_round_saturates :
    ran 0x412E848000000000#64 5#128 0x04 =
      some { start 0x7FF0000000000000#64 0x7C00#128 with cls := .pinf, q := false } := by
  decide +kernel

/-- 2.5: 3.14 in binary32. -/
theorem test_round_single :
    ran 0x40091EB851EB851F#64 5#128 0x14 =
      some { start 0x40091EB860000000#64 0x4048F5C3#128 with cls := .normal, q := false } := by
  decide +kernel

/-- 2.6: 0.1 is no binary32 value; `VAL` and `PAT` stay. -/
theorem test_isfloat_false :
    ran 0x3FB999999999999A#64 5#128 0x15 =
      some { start 0x3FB999999999999A#64 5#128 with cls := .normal, q := false } := by
  decide +kernel

/-- 2.6: `-0` passes the predicate. -/
theorem test_isfloat_negative_zero :
    ran 0x8000000000000000#64 5#128 0x05 =
      some { start 0x8000000000000000#64 5#128 with cls := .nzero, q := true } := by
  decide +kernel

/-- 2.1: `DESC.b16 nan`. -/
theorem test_desc_nan :
    ran 1#64 (BitVec.allOnes 128) 0x306 =
      some { start 1#64 0x7E00#128 with cls := .none, q := false } := by decide

/-- 2.1: `DESC.b128 wide`. -/
theorem test_desc_wide :
    ran 1#64 (BitVec.allOnes 128) 0x836 =
      some { start 1#64 1#128 with cls := .none, q := false } := by decide

/-- 2.7: `CLRERR` from `ERR = 1`. -/
theorem test_clrerr :
    after (step ({ start 1#64 2#128 with err := .illegalOpcode }.withFetchWord 64 0x07)) =
      some { start 1#64 2#128 with cls := .none, q := false } := by decide

/-- 2.7: a refused `CLRERR` leaves the first cause in the latch. -/
theorem test_refused_clrerr :
    after (step ({ start 1#64 2#128 with err := .illegalOpcode }.withFetchWord 64 0x17)) =
      some { start 1#64 2#128 with err := .illegalOpcode } := by decide

/-! ### The port -/

/-- 2.7: the all-zero word is no command; `STATUS` then reads `0x1E`. -/
theorem test_zero_word_is_refused :
    (ran 1#64 2#128 0).map statusWord = some 0x1E#64 := by decide

/-- 2.7: a write of `STATUS` is refused; `STATUS` then reads `0x3E`. -/
theorem test_status_write_is_refused :
    (after (regWrite 4#3 0#64 (start 1#64 2#128))).map statusWord = some 0x3E#64 := by decide

/-- 2.7: a read at index 6 returns zero to the host and latches `BAD_ACCESS`. -/
theorem test_unmapped_read :
    after (step { start 1#64 2#128 with pending := [.regRead 6#3] }) =
      some { start 1#64 2#128 with err := .badAccess, returned := [0#64] } := by decide

/-- P5 step 5: a write of `PAT_LO` leaves the high half. -/
theorem test_pat_lo_write :
    (after (regWrite 1#3 0x0800000000000000#64
      (start 1#64 0x400091EB851EB851F000000000000000#128))).map State.pat =
      some 0x400091EB851EB8510800000000000000#128 := by decide

/-- R81: `ROUND.b32.rne` is the word `0x54`, and an omitted suffix is `.rha`. -/
theorem test_assembler :
    assemble (.round .b32 (some .rne)) = .regWrite 3#3 0x54#64 ∧
      assemble (.encode .b16 none) = .regWrite 3#3 0x02#64 ∧
      assemble (.desc .b128 .bias) = .regWrite 3#3 0x236#64 := by decide

/-! ### Witnesses: every hypothesis of a statement is met by something -/

/-- Both ends of the unmapped indices. -/
theorem witness_reads_unmapped : 5 ≤ (5#3 : Index).toNat ∧ 5 ≤ (7#3 : Index).toNat := by decide

/-- Both ends of the mapped indices. -/
theorem witness_reads_mapped : (0#3 : Index).toNat ≤ 4 ∧ (4#3 : Index).toNat ≤ 4 := by decide

theorem witness_writes :
    decode 0x836#64 = .accepted (.desc .b128 8#4) ∧ decode 0x08#64 = .refused .illegalOpcode ∧
      decode 0x906#64 = .refused .reservedField ∧
      4 ≤ (4#3 : Index).toNat ∧ 4 ≤ (7#3 : Index).toNat := by decide

theorem witness_DecodeInvertsEncode : WellFormed (.desc .b128 8#4) = true := by decide

theorem witness_AcceptedWordIsItsCommandsEncoding :
    decode 0x836#64 = .accepted (.desc .b128 8#4) := by decide

/-- A word for each opcode that is not in the command's list: the field or bit next to a used one. -/
theorem witness_RefusesOtherWords :
    ((0x41#64 : Word).extractLsb' 0 4 = 1#4 ∧ (0x41#64 : Word) ∉ [0x01#64, 0x11#64, 0x21#64, 0x31#64]) ∧
    ((0x82#64 : Word).extractLsb' 0 4 = 2#4 ∧ (0x82#64 : Word) ∉
      [0x02#64, 0x12#64, 0x22#64, 0x32#64, 0x42#64, 0x52#64, 0x62#64, 0x72#64]) ∧
    ((0x8000000000000003#64 : Word).extractLsb' 0 4 = 3#4 ∧ (0x8000000000000003#64 : Word) ∉
      [0x03#64, 0x13#64, 0x23#64, 0x33#64, 0x43#64, 0x53#64, 0x63#64, 0x73#64]) ∧
    ((0x104#64 : Word).extractLsb' 0 4 = 4#4 ∧ (0x104#64 : Word) ∉
      [0x04#64, 0x14#64, 0x24#64, 0x34#64, 0x44#64, 0x54#64, 0x64#64, 0x74#64]) ∧
    ((0x1005#64 : Word).extractLsb' 0 4 = 5#4 ∧ (0x1005#64 : Word) ∉
      [0x05#64, 0x15#64, 0x25#64, 0x35#64, 0x45#64, 0x55#64, 0x65#64, 0x75#64]) ∧
    ((0x906#64 : Word).extractLsb' 0 4 = 6#4 ∧ (0x906#64 : Word) ∉
      (List.range 9).flatMap fun sel =>
        (List.range 4).map fun k => BitVec.ofNat 64 (0x006 + 0x100 * sel + 0x10 * k)) ∧
    ((0x17#64 : Word).extractLsb' 0 4 = 7#4 ∧ (0x17#64 : Word) ∉ [0x07#64]) := by decide

/-- A word under each clause of `DecoderChecksInOrder`, with both ends of the illegal range. -/
theorem witness_DecoderChecksInOrder :
    ((0x10#64 : Word).extractLsb' 0 4).toNat = 0 ∧ 8 ≤ ((0x08#64 : Word).extractLsb' 0 4).toNat ∧
    8 ≤ ((0x0F#64 : Word).extractLsb' 0 4).toNat ∧
    ((0x31#64 : Word).extractLsb' 0 4).toNat = 1 ∧ ((0x72#64 : Word).extractLsb' 0 4).toNat = 2 ∧
    ((0x73#64 : Word).extractLsb' 0 4).toNat = 3 ∧ ((0x74#64 : Word).extractLsb' 0 4).toNat = 4 ∧
    ((0x75#64 : Word).extractLsb' 0 4).toNat = 5 ∧ ((0x836#64 : Word).extractLsb' 0 4).toNat = 6 ∧
    ((0x07#64 : Word).extractLsb' 0 4).toNat = 7 := by decide

theorem witness_StepRunsTheDecodedCommand :
    decode 0x02#64 = .accepted (.encode .b16 .rha) ∧
      { State.reset with pending := [.regWrite 3#3 0x02#64, .regRead 4#3] }.pending =
        .regWrite 3#3 0x02#64 :: [.regRead 4#3] := by decide

theorem witness_StepPerformsTheFirstPendingTransaction :
    State.reset.pending = [] ∧
      { State.reset with pending := [.regRead 7#3] }.pending = .regRead 7#3 :: [] ∧
      { State.reset with pending := [.regWrite 0#3 1#64] }.pending = .regWrite 0#3 1#64 :: [] ∧
      { State.reset with pending := [.reset] }.pending = .reset :: [] := by decide

theorem witness_RefusedTransactionOnlyLatches :
    refusalOf (.regWrite 3#3 0#64) = some .illegalOpcode ∧
      refusalOf (.regWrite 3#3 0x82#64) = some .reservedField ∧
      refusalOf (.regWrite 4#3 0#64) = some .badAccess ∧
      refusalOf (.regRead 5#3) = some .badAccess := by decide

theorem witness_ErrorCodeIsStickyUntilCleared :
    clearsErr .reset = true ∧ clearsErr (.regWrite 3#3 0x07#64) = true ∧
      (clearsErr (.regWrite 3#3 0x17#64) = false ∧
        { State.reset with err := .badAccess }.err ≠ .none) ∧
      (clearsErr (.regWrite 3#3 0x02#64) = false ∧ refusalOf (.regWrite 3#3 0x02#64) = none) := by
  decide

theorem witness_ErrorCodeAffectsNothingElse : Transaction.regRead 5#3 ≠ .regRead 4#3 := by decide

theorem witness_DocumentedReadsDetermineWrites :
    (start 1#64 2#128).val = (start 1#64 3#128).val ∧
      (start 1#64 0x14248#128).pat.toNat % 2 ^ patWidth (desc .b16) =
        (start 2#64 0x4248#128).pat.toNat % 2 ^ patWidth (desc .b16) ∧
      WellFormed (.desc .b16 0#4) = true := by decide

theorem witness_CommandsLeaveOtherRegistersAlone (s : State) :
    (∃ t, exec (.classify .b16) s = .next t) ∧ (∃ t, exec (.encode .b16 .rha) s = .next t) ∧
      (∃ t, exec (.decode .b16 .rha) s = .next t) ∧ (∃ t, exec (.round .b16 .rha) s = .next t) ∧
      (∃ t, exec (.isfloat .b16 .rha) s = .next t) ∧
      (WellFormed (.desc .b16 8#4) = true ∧ ∃ t, exec (.desc .b16 8#4) s = .next t) ∧
      (∃ t, exec .clrerr s = .next t) :=
  ⟨⟨_, rfl⟩, ⟨_, rfl⟩, ⟨_, rfl⟩, ⟨_, rfl⟩, ⟨_, rfl⟩, ⟨rfl, _, rfl⟩, ⟨_, rfl⟩⟩

/-- Both ends of R74's selectors, in the list of the statement. -/
theorem witness_DescDeliversTheSelectedField :
    let F := desc .b16
    let rows : List (Nat × Pattern) := [(0, BitVec.ofNat 128 F.ebits), (1, BitVec.ofNat 128 F.mbits),
      (2, BitVec.ofNat 128 F.bias), (3, F.nan), (4, F.pinf), (5, F.ninf), (6, F.nzero), (7, F.pzero),
      (8, if F.wide then 1#128 else 0#128)]
    ((0#4 : BitVec 4).toNat, 5#128) ∈ rows ∧ ((8#4 : BitVec 4).toNat, 0#128) ∈ rows := by decide

/-- The number one is a finite non-zero value word: the hypothesis of `ShiftFormEncodesAsTheRules`,
`EncoderPreservesTheSign`, `Binary128EncodeIsExact` and the middle clause of
`ClassifierReadsTheBitsOfTheWord`. -/
theorem witness_finite_value : Rational.val64 0x3FF0000000000000#64 = .finite false 1 := by
  simp [Rational.val64, Rational.pow2]

/-- So is the smallest subnormal, with the sign set. -/
theorem witness_finite_subnormal :
    Rational.val64 0x8000000000000001#64 = .finite true (Rational.pow2 (-1074)) := by
  simp [Rational.val64]

theorem witness_shift_amount : (54 : Int) ≤ 54 := by decide

theorem witness_ArbiterRoundsExactly :
    (0 < 4 ∧ ((1 : Nat) : Rat) / ((4 : Nat) : Rat) - (Nat.floor (((1 : Nat) : Rat) / ((4 : Nat) : Rat)) : Nat) < 1 / 2) ∧
    (0 < 4 ∧ 1 / 2 < ((3 : Nat) : Rat) / ((4 : Nat) : Rat) - (Nat.floor (((3 : Nat) : Rat) / ((4 : Nat) : Rat)) : Nat)) ∧
    (0 < 2 ∧ ((1 : Nat) : Rat) / ((2 : Nat) : Rat) - (Nat.floor (((1 : Nat) : Rat) / ((2 : Nat) : Rat)) : Nat) = 1 / 2) := by
  rw [Nat.floor_div_eq_div, Nat.floor_div_eq_div, Nat.floor_div_eq_div]
  norm_num

/-- A NaN word with the lowest payload, and a word next to the NaN words: the two clauses of
`Binary64ConversionIsTheIdentity`. -/
theorem witness_nan_word : Rational.IsNaN 0xFFF0000000000001#64 ∧ ¬ Rational.IsNaN 0x7FF0000000000000#64 := by
  unfold Rational.IsNaN
  decide

/-- The smallest and the largest finite binary16 patterns, and the smallest binary128 one: the
hypothesis of `RepresentableMagnitudesEncodeExactly`. -/
theorem witness_finite_patterns :
    FiniteNonZero (desc .b16) 0x0001 ∧ FiniteNonZero (desc .b16) 0xFBFF ∧
      FiniteNonZero (desc .b128) 1 := by
  unfold FiniteNonZero
  decide

theorem witness_EncoderIsMonotone : (0 : Rat) < 1 ∧ (1 : Rat) ≤ 2 := by norm_num

/-- `1 + 2^-11` is a tie in binary16 (spec/95 section 2.3). -/
theorem witness_RoundingModeMattersOnlyOnTies :
    encodeWord 0x3FF0020000000000#64 (desc .b16) .rha ≠
      encodeWord 0x3FF0020000000000#64 (desc .b16) .rne := by decide +kernel

/-- `0x7C01` and `0x7C00` have the all-ones exponent of binary16, with and without a mantissa. -/
theorem witness_AllOnesExponentDecodesToNaNOrInfinity :
    (0x7C01#128 : Pattern).toNat / 2 ^ (desc .b16).mbits % 2 ^ (desc .b16).ebits =
        2 ^ (desc .b16).ebits - 1 ∧ (0x7C01#128 : Pattern).toNat % 2 ^ (desc .b16).mbits ≠ 0 ∧
      (0x7C00#128 : Pattern).toNat / 2 ^ (desc .b16).mbits % 2 ^ (desc .b16).ebits =
        2 ^ (desc .b16).ebits - 1 ∧ (0x7C00#128 : Pattern).toNat % 2 ^ (desc .b16).mbits = 0 := by
  decide

theorem witness_NarrowPatternsDecodeExactly :
    Fmt.b16 ≠ .b128 ∧ FiniteNonZero (desc .b16) ((0x14248#128 : Pattern).toNat % 2 ^ patWidth (desc .b16)) := by
  unfold FiniteNonZero
  decide

theorem witness_EncodeInvertsDecodeOnPatterns :
    Fmt.b16 ≠ .b128 ∧ 0xFFFF < 2 ^ patWidth (desc .b16) ∧ NonCanonicalNaN (desc .b16) 0xFFFF ∧
      0x7E00 < 2 ^ patWidth (desc .b16) ∧ ¬ NonCanonicalNaN (desc .b16) 0x7E00 := by
  unfold NonCanonicalNaN
  decide

/-- A pair under each clause of the value equality: a NaN, two zeros, and two words that are not both
zeros. -/
theorem witness_ValueEqualityIsThatOfDoubles :
    Rational.IsNaN 0x7FF0000000000001#64 ∧
      (¬ Rational.IsNaN 0#64 ∧ ¬ Rational.IsNaN 0x8000000000000000#64) ∧
      (¬ Rational.IsNaN 1#64 ∧ ¬ ((1#64 : Word) = 0#64 ∨ (1#64 : Word) = 0x8000000000000000#64)) := by
  unfold Rational.IsNaN
  decide

theorem witness_NoOperandValueStopsACommand :
    WellFormed (.desc .b16 8#4) = true ∧ Instr.desc .b16 8#4 ≠ .clrerr := by decide

/-- A run with a refusal and nothing clearing after it, and a run with none. -/
theorem witness_ErrZeroAtTheEndMeansNothingWasRefused :
    State.reset.err = .none ∧
      NoClearAfterRefusal [.reset, .regRead 5#3, .regRead 4#3] ∧ NoClearAfterRefusal [.regRead 4#3] := by
  refine ⟨rfl, ?_, ?_⟩
  · intro before rest t u h ht hu
    match before with
    | [] => simp at h; obtain ⟨rfl, _⟩ := h; simp [refusalOf] at ht
    | [_] => simp at h; obtain ⟨_, _, rfl⟩ := h; simp at hu; subst hu; rfl
    | [_, _] => simp at h; obtain ⟨_, _, _, rfl⟩ := h; simp at hu
    | _ :: _ :: _ :: _ => simp at h
  · intro before rest t u h ht hu
    match before with
    | [] => simp at h; obtain ⟨_, rfl⟩ := h; simp at hu
    | _ :: _ => simp at h

theorem witness_StepKeepsStatusLegal : StatusLegal (start 1#64 2#128) := by
  unfold StatusLegal start
  decide

end Sys2Proof.Tests
end

