-- ==== Sys2Proof/Proofs/Scope.lean ====
section
/-! What a command writes as a function of what it reads (spec/00_scope.md R15, spec/10_state.md R36). -/

namespace Sys2Proof.Machine

theorem wellFormed_desc_iff (f : Fmt) (sel : BitVec 4) :
    WellFormed (.desc f sel) = true ↔ sel.toNat ≤ 8 := by
  simp [WellFormed, selInRange]

/-- A well-formed `DESC` has its field before any state is known, and delivers it in every state (R93). -/
theorem exec_desc_of_wellFormed {f : Fmt} {sel : BitVec 4} (h : WellFormed (.desc f sel) = true) :
    ∃ v, descField (desc f) sel = some v ∧
      ∀ s, exec (.desc f sel) s = .next (complete .none false { s with pat := v }) := by
  have hsel := (wellFormed_desc_iff f sel).1 h
  obtain ⟨v, hv, -⟩ | ⟨hlt, -⟩ := exec_desc_cases f State.reset sel
  · refine ⟨v, hv, fun s => ?_⟩
    obtain ⟨v', hv', hexec⟩ | ⟨hlt, -⟩ := exec_desc_cases f s sel
    · obtain rfl : v = v' := Option.some.inj (hv.symm.trans hv')
      exact hexec
    · omega
  · omega

/-- Settles O21: the next state of each command is `complete` of terms in the registers it reads; for
`DECODE` these are the low `F.W` bits of `PAT` alone. -/
theorem documentedReadsDetermineWrites : Obligations.DocumentedReadsDetermineWrites := by
  intro f rm sel s u
  refine ⟨fun hval => ?classify, fun hval => ?encode, fun hval => ?round, fun hval => ?isfloat,
    fun hpat => ?decode, fun hwf => ?desc, ?clrerr⟩
  case classify => exact ⟨_, _, exec_classify f s, exec_classify f u, by simp [hval]⟩
  case encode => exact ⟨_, _, exec_encode f rm s, exec_encode f rm u, by simp [hval]⟩
  case round => exact ⟨_, _, exec_round f rm s, exec_round f rm u, by simp [hval]⟩
  case isfloat => exact ⟨_, _, exec_isfloat f rm s, exec_isfloat f rm u, by simp [hval]⟩
  case decode =>
    have hread := decodePattern_congr hpat rm
    exact ⟨_, _, exec_decode f rm s, exec_decode f rm u, by simp [hread]⟩
  case desc =>
    obtain ⟨v, -, hexec⟩ := exec_desc_of_wellFormed hwf
    exact ⟨_, _, hexec s, hexec u, rfl, rfl, rfl⟩
  case clrerr => exact ⟨_, _, exec_clrerr s, exec_clrerr u, rfl, rfl, rfl⟩

end Sys2Proof.Machine
end

