-- ==== Sys2Proof/Proofs/State.lean ====
section
/-! The registers at reset, the frame of every command, the fields of `STATUS`, and the invariant on its
class and predicate bit (spec/10_state.md sections 4, 8 and 9). -/

namespace Sys2Proof.Machine

/-! ### What keeps a `STATUS` legal -/

/-- A clear `Q` promises nothing about the class. -/
theorem StatusLegal.of_q_eq_false {s : State} (hq : s.q = false) : StatusLegal s := by
  simp [StatusLegal, hq]

/-- The invariant reads `CLS` and `Q` alone. -/
theorem StatusLegal.congr {s t : State} (hs : StatusLegal s) (hcls : t.cls = s.cls) (hq : t.q = s.q) :
    StatusLegal t := by
  simpa only [StatusLegal, hcls, hq] using hs

theorem StatusLegal.refuse {s : State} (hs : StatusLegal s) (code : ErrCode) :
    StatusLegal (refuse code s) := hs.congr (refuse_cls code s) (refuse_q code s)

/-- `ISFLOAT` sets `Q` only where the input equals its round trip, so on no NaN word (R173, R174). -/
theorem statusLegal_complete_classOf_valEq (d v : Word) (F : Descriptor) (s : State) :
    StatusLegal (complete (classOf d F) (valEq d v) s) := by
  intro hq
  rw [complete_q] at hq
  have hnum : isNaNWord d = false := not_isNaNWord_of_valEq hq
  refine ⟨classOf_ne_none d F, fun hnan => ?_⟩
  rw [complete_cls, classOf_eq_nan_iff, hnum] at hnan
  cases hnan

/-- Every command but `ISFLOAT` clears `Q`, or is refused and leaves `CLS` and `Q` alone. -/
theorem exec_keeps_statusLegal (i : Instr) {s : State} (hs : StatusLegal s) :
    ∃ t, exec i s = .next t ∧ StatusLegal t := by
  cases i with
  | classify f => exact ⟨_, exec_classify f s, .of_q_eq_false rfl⟩
  | encode f rm => exact ⟨_, exec_encode f rm s, .of_q_eq_false rfl⟩
  | decode f rm => exact ⟨_, exec_decode f rm s, .of_q_eq_false rfl⟩
  | round f rm => exact ⟨_, exec_round f rm s, .of_q_eq_false rfl⟩
  | isfloat f rm => exact ⟨_, exec_isfloat f rm s, statusLegal_complete_classOf_valEq _ _ _ s⟩
  | desc f sel =>
    obtain ⟨v, -, hexec⟩ | ⟨-, hexec⟩ := exec_desc_cases f s sel
    · exact ⟨_, hexec, .of_q_eq_false rfl⟩
    · exact ⟨_, hexec, hs.refuse _⟩
  | clrerr => exact ⟨_, exec_clrerr s, .of_q_eq_false rfl⟩

theorem regRead_keeps_statusLegal (i : Index) {s : State} (hs : StatusLegal s) :
    StatusLegal (regRead i s).2 := by
  obtain ⟨hread, -⟩ | ⟨hread, -⟩ := regRead_state i s
  · rwa [hread]
  · rw [hread]
    exact hs.refuse _

theorem regWrite_keeps_statusLegal (i : Index) (v : Word) {s : State} (hs : StatusLegal s) :
    ∃ t, regWrite i v s = .next t ∧ StatusLegal t := by
  obtain ⟨-, hval⟩ | ⟨-, hlo⟩ | ⟨-, hhi⟩ | ⟨-, c, -, hcmd⟩ | ⟨-, e, -, hrefused⟩ | ⟨-, hbad⟩ :=
    regWrite_cases i v s
  · exact ⟨_, hval, hs⟩
  · exact ⟨_, hlo, hs⟩
  · exact ⟨_, hhi, hs⟩
  · rw [hcmd]
    exact exec_keeps_statusLegal c hs
  · exact ⟨_, hrefused, hs.refuse e⟩
  · exact ⟨_, hbad, hs.refuse _⟩

theorem deliver_keeps_statusLegal (t : Transaction) {s : State} (hs : StatusLegal s) :
    ∃ u, deliver t s = .next u ∧ StatusLegal u := by
  cases t with
  | reset => exact ⟨_, rfl, .of_q_eq_false (resetBlock_q s)⟩
  | regRead i => exact ⟨_, rfl, (regRead_keeps_statusLegal i hs).congr rfl rfl⟩
  | regWrite i v => exact regWrite_keeps_statusLegal i v hs

/-- Settles O53: a step is idle or delivers one transaction, and no transaction breaks the invariant. -/
theorem stepKeepsStatusLegal : Obligations.StepKeepsStatusLegal := by
  intro s hs
  obtain ⟨-, hidle⟩ | ⟨t, ts, -, hstep⟩ := step_cases s
  · exact ⟨s, hidle, hs⟩
  · rw [hstep]
    exact deliver_keeps_statusLegal t (hs.congr rfl rfl)

/-- Settles O54: `Q` is clear at reset. -/
theorem resetStatusIsLegal : Obligations.ResetStatusIsLegal := .of_q_eq_false rfl

/-! ### Reset and the frame of the commands -/

/-- Settles O1: the record `State.reset`, field by field. -/
theorem resetStateIsAllZero : Obligations.ResetStateIsAllZero := ⟨rfl, rfl, rfl, rfl, rfl⟩

/-- Settles O22: the next state of each command is `complete` of an update of the registers it writes, so
the fields are read off it. -/
theorem commandsLeaveOtherRegistersAlone : Obligations.CommandsLeaveOtherRegistersAlone := by
  intro f rm sel s t
  refine ⟨fun hnext => ?classify, fun hnext => ?encode, fun hnext => ?decode, fun hnext => ?round,
    fun hnext => ?isfloat, fun hwf hnext => ?desc, fun hnext => ?clrerr⟩
  case classify => cases (exec_classify f s).symm.trans hnext; simp
  case encode => cases (exec_encode f rm s).symm.trans hnext; simp
  case decode => cases (exec_decode f rm s).symm.trans hnext; simp
  case round => cases (exec_round f rm s).symm.trans hnext; simp
  case isfloat => cases (exec_isfloat f rm s).symm.trans hnext; simp
  case desc =>
    obtain ⟨v, -, hexec⟩ := exec_desc_of_wellFormed hwf
    cases (hexec s).symm.trans hnext
    simp
  case clrerr => cases (exec_clrerr s).symm.trans hnext; simp

/-! ### The fields of `STATUS` -/

theorem clsCode_eq_iff (c c' : Class) : clsCode c = clsCode c' ↔ c = c' := by
  cases c <;> cases c' <;> decide

theorem errBits_eq_iff (e e' : ErrCode) : errBits e = errBits e' ↔ e = e' := by
  cases e <;> cases e' <;> decide

section StatusWord
variable (s : State)

/-- The fields of `STATUS` by their weights: `CLS` from bit 0, `Q` at bit 3, `ERR` from bit 4 (R27). -/
theorem statusWord_toNat : (statusWord s).toNat =
    (clsCode s.cls).toNat + 8 * s.q.toNat + 16 * (errBits s.err).toNat := by
  unfold statusWord
  generalize clsCode s.cls = c, errBits s.err = e
  revert c e
  cases s.q <;> decide

theorem statusWord_extractLsb'_cls : (statusWord s).extractLsb' 0 3 = clsCode s.cls := by
  apply BitVec.eq_of_toNat_eq
  rw [BitVec.extractLsb'_toNat, statusWord_toNat, Nat.shiftRight_eq_div_pow]
  have hcls := (clsCode s.cls).isLt
  omega

theorem statusWord_extractLsb'_q : (statusWord s).extractLsb' 3 1 = BitVec.ofBool s.q := by
  apply BitVec.eq_of_toNat_eq
  rw [BitVec.extractLsb'_toNat, statusWord_toNat, Nat.shiftRight_eq_div_pow, BitVec.toNat_ofBool]
  have hcls := (clsCode s.cls).isLt
  have hq := s.q.toNat_lt
  omega

theorem statusWord_extractLsb'_err : (statusWord s).extractLsb' 4 2 = errBits s.err := by
  apply BitVec.eq_of_toNat_eq
  rw [BitVec.extractLsb'_toNat, statusWord_toNat, Nat.shiftRight_eq_div_pow]
  have hcls := (clsCode s.cls).isLt
  have hq := s.q.toNat_lt
  have herr := (errBits s.err).isLt
  omega

theorem statusWord_extractLsb'_above : (statusWord s).extractLsb' 6 58 = 0#58 := by
  apply BitVec.eq_of_toNat_eq
  rw [BitVec.extractLsb'_toNat, statusWord_toNat, Nat.shiftRight_eq_div_pow]
  have hcls := (clsCode s.cls).isLt
  have hq := s.q.toNat_lt
  have herr := (errBits s.err).isLt
  simp only [BitVec.toNat_ofNat]
  omega

end StatusWord

/-- Settles O5: the fields of the word are the codes, and the codes of different values differ (R28, R30). -/
theorem statusWordShowsItsFieldsAndCodes : Obligations.StatusWordShowsItsFieldsAndCodes := by
  intro s
  refine ⟨statusWord s, rfl, statusWord_extractLsb'_above s, ?_⟩
  rw [statusWord_extractLsb'_q, statusWord_extractLsb'_cls, statusWord_extractLsb'_err]
  refine ⟨by cases s.q <;> decide, ?_⟩
  simp only [← clsCode_eq_iff, ← errBits_eq_iff]
  simp [clsCode, errBits]

end Sys2Proof.Machine
end

