-- ==== Sys2Proof/Proofs/Memory.lean ====
section
/-! The port: the register map, the step as one transaction, and the idempotence of every access
(spec/20_memory.md R52, R53, R58, R60).  Of the commands only `ROUND` reads a register it writes (R58); it is
idempotent because a pattern the encoder answers survives a decode and an encode in any modes (R172). -/

namespace Sys2Proof.Machine

/-! ### The fields of a finite pattern and the magnitude they stand for -/

/-- The fields of a finite non-zero pattern of row `F` (R153, R155). -/
structure FiniteFields (F : Descriptor) (E T : Nat) : Prop where
  expf_lt : E < 2 ^ F.ebits - 1
  mant_lt : T < 2 ^ F.mbits
  ne_zero : E = 0 → T ≠ 0

theorem FiniteFields.expf_lt_pow {F : Descriptor} {E T : Nat} (hf : FiniteFields F E T) : E < 2 ^ F.ebits := by
  have := hf.expf_lt
  omega

/-- The exact magnitude of an exponent and a mantissa field: R153 for `E = 0`, R155 otherwise. -/
def fieldMag (F : Descriptor) (E T : Nat) : Mag :=
  if E = 0 then { sig := T, exp := 1 - (F.bias : Int) - (F.mbits : Int) }
  else { sig := 2 ^ F.mbits + T, exp := (E : Int) - (F.bias : Int) - (F.mbits : Int) }

/-- The number that packed fields spell (R126). -/
def packNat (F : Descriptor) (s : Bool) (E T : Nat) : Nat :=
  s.toNat * 2 ^ (F.ebits + F.mbits) + E * 2 ^ F.mbits + T

section PackNat
variable {F : Descriptor} {E T : Nat} (s : Bool)

theorem packNat_lt (hE : E < 2 ^ F.ebits) (hT : T < 2 ^ F.mbits) : packNat F s E T < 2 ^ patWidth F := by
  have hlow : E * 2 ^ F.mbits + T < 2 ^ (F.ebits + F.mbits) := by
    rw [pow_add]; nlinarith
  have hs : s.toNat * 2 ^ (F.ebits + F.mbits) ≤ 1 * 2 ^ (F.ebits + F.mbits) :=
    Nat.mul_le_mul_right _ (Bool.toNat_le s)
  rw [packNat, patWidth, pow_succ]
  omega

theorem mantField_packNat (hT : T < 2 ^ F.mbits) : mantField F (packNat F s E T) = T := by
  have hsplit : packNat F s E T = T + 2 ^ F.mbits * (s.toNat * 2 ^ F.ebits + E) := by
    rw [packNat, pow_add]; ring
  rw [mantField, slice, pow_zero, Nat.div_one, hsplit, Nat.add_mul_mod_self_left, Nat.mod_eq_of_lt hT]

theorem expField_packNat (hE : E < 2 ^ F.ebits) (hT : T < 2 ^ F.mbits) :
    expField F (packNat F s E T) = E := by
  have hsplit : packNat F s E T = T + 2 ^ F.mbits * (E + 2 ^ F.ebits * s.toNat) := by
    rw [packNat, pow_add]; ring
  rw [expField, slice, hsplit, Nat.add_mul_div_left _ _ (by positivity), Nat.div_eq_of_lt hT, zero_add,
    Nat.add_mul_mod_self_left, Nat.mod_eq_of_lt hE]

theorem signField_packNat (hE : E < 2 ^ F.ebits) (hT : T < 2 ^ F.mbits) :
    signField F (packNat F s E T) = s := by
  have hlow : T + 2 ^ F.mbits * E < 2 ^ (F.ebits + F.mbits) := by
    rw [pow_add]; nlinarith
  have hsplit : packNat F s E T = (T + 2 ^ F.mbits * E) + 2 ^ (F.ebits + F.mbits) * s.toNat := by
    rw [packNat]; ring
  rw [signField, slice, hsplit, Nat.add_mul_div_left _ _ (by positivity), Nat.div_eq_of_lt hlow]
  cases s <;> rfl

end PackNat

/-! ### The encoder is exact on the magnitudes of its format -/

open Rational (pow2 magValue pow2_pos pow2_ne_zero pow2_add pow2_sub pow2_natCast magValue_div_pow2 magBelow_iff
  magLog2_eq_log magFraction_value)

/-- The arbiter has nothing to round when the quotient is a natural number (R123). -/
theorem roundMag_exact {M : Mag} {j : Int} {n : Nat} (h : magValue M = n * pow2 j) (rm : RoundMode) :
    roundMag M j rm = n := by
  have hden : 0 < 2 ^ (j - M.exp).toNat := by positivity
  have hquot : M.sig * 2 ^ (M.exp - j).toNat = n * 2 ^ (j - M.exp).toNat := by
    have hdiv := magValue_div_pow2 M j
    rw [h, mul_div_cancel_right₀ _ (pow2_ne_zero j), eq_div_iff (by positivity)] at hdiv
    exact_mod_cast hdiv.symm
  rw [roundMag, arbiter_exact hden (by rw [hquot, Nat.mul_mod_left]), hquot, Nat.mul_div_cancel _ hden]

section Exact
variable {F : Descriptor} {M : Mag} {T : Nat}

/-- A subnormal magnitude of the format goes through the subnormal branch unrounded (R124). -/
theorem normalizer_subnormal (hT : T < 2 ^ F.mbits)
    (h : magValue M = T * pow2 (1 - (F.bias : Int) - (F.mbits : Int))) (rm : RoundMode) :
    normalizer M F rm = { expf := 0, mant := T } := by
  have hbelow : magBelow M (1 - (F.bias : Int)) = true := by
    rw [magBelow_iff, h, pow2_sub _ (F.mbits : Int), pow2_natCast, mul_div_assoc', div_lt_iff₀ (by positivity),
      mul_comm]
    exact mul_lt_mul_of_pos_left (by exact_mod_cast hT) (pow2_pos _)
  rw [normalizer, if_pos hbelow, subnormalFields, roundMag_exact h]

/-- The exponent of a magnitude between two neighbouring powers of two (R125). -/
theorem magLog2_eq_of_bounds {e : Int} (hlow : pow2 e ≤ magValue M) (hhigh : magValue M < pow2 (e + 1)) :
    magLog2 M = e := by
  have hpos : 0 < magValue M := (pow2_pos e).trans_le hlow
  have hsig : M.sig ≠ 0 := fun h0 => by simp [magValue, h0] at hpos
  rw [magLog2_eq_log hsig]
  apply le_antisymm
  · rw [← Int.lt_add_one_iff, ← Int.lt_zpow_iff_log_lt (by norm_num) hpos]
    exact_mod_cast hhigh
  · rw [← Int.zpow_le_iff_le_log (by norm_num) hpos]
    exact_mod_cast hlow

/-- A magnitude `1.T * 2^e` lies in the binade of `2^e` and leaves the fraction `T` (R125). -/
theorem magLog2_magFraction_of_normal {e : Int} (hT : T < 2 ^ F.mbits)
    (h : magValue M = (2 ^ F.mbits + T : Nat) * pow2 (e - (F.mbits : Int))) :
    pow2 e ≤ magValue M ∧ magLog2 M = e ∧ magValue (magFraction M) = T * pow2 (e - (F.mbits : Int)) := by
  have hstep := pow2_pos (e - (F.mbits : Int))
  have hlead : pow2 e = (2 ^ F.mbits : Nat) * pow2 (e - (F.mbits : Int)) := by
    rw [← pow2_natCast, ← pow2_add, add_sub_cancel]
  have hlow : pow2 e ≤ magValue M := by
    rw [h, hlead]
    exact mul_le_mul_of_nonneg_right (by exact_mod_cast Nat.le_add_right _ _) hstep.le
  have hhigh : magValue M < pow2 (e + 1) := by
    rw [h, pow2_add, hlead, mul_right_comm, show pow2 1 = ((2 : Nat) : Rat) by norm_num [pow2]]
    exact mul_lt_mul_of_pos_right (by exact_mod_cast (by omega : 2 ^ F.mbits + T < 2 ^ F.mbits * 2)) hstep
  have hlog := magLog2_eq_of_bounds hlow hhigh
  have hsig : M.sig ≠ 0 := fun h0 => by
    have hpos := (pow2_pos e).trans_le hlow
    simp [magValue, h0] at hpos
  refine ⟨hlow, hlog, ?_⟩
  rw [magFraction_value hsig, hlog, h, hlead]
  push_cast
  ring

/-- A normal magnitude of the format goes through the normal branch unrounded (R125). -/
theorem normalizer_normal {E : Nat} (hE : E ≠ 0) (hT : T < 2 ^ F.mbits)
    (h : magValue M = (2 ^ F.mbits + T : Nat) * pow2 ((E : Int) - (F.bias : Int) - (F.mbits : Int)))
    (rm : RoundMode) : normalizer M F rm = { expf := E, mant := T } := by
  obtain ⟨hlow, hlog, hfrac⟩ := magLog2_magFraction_of_normal hT h
  have habove : ¬ magBelow M (1 - (F.bias : Int)) = true := by
    rw [magBelow_iff, not_lt]
    exact (zpow_le_zpow_right₀ (by norm_num) (by omega)).trans hlow
  rw [normalizer, if_neg habove, normalFields, hlog, roundMag_exact hfrac, sub_add_cancel, Int.toNat_natCast]

/-- A magnitude equal to one of row `F` is encoded, in either mode, as that one's fields (R131 (e)). -/
theorem encodeMag_exact {E : Nat} (hf : FiniteFields F E T) (h : magValue M = magValue (fieldMag F E T))
    (s : Bool) (rm : RoundMode) : encodeMag s M F rm = BitVec.ofNat 128 (packNat F s E T) := by
  have hnorm : normalizer M F rm = { expf := E, mant := T } := by
    by_cases hE : E = 0
    · subst hE
      exact normalizer_subnormal hf.mant_lt (by simpa [fieldMag, magValue] using h) rm
    · exact normalizer_normal hE hf.mant_lt (by simpa [fieldMag, magValue, hE] using h) rm
  have hcarry : carry F { expf := E, mant := T } = { expf := E, mant := T } := by
    rw [carry, if_neg hf.mant_lt.ne]
  rw [encodeMag, hnorm]
  obtain ⟨hsat, -⟩ | ⟨-, hpack⟩ := compositor_cases F s { expf := E, mant := T }
  · rw [hcarry] at hsat
    exact absurd hf.expf_lt hsat.not_gt
  · rw [hpack, hcarry, pack_eq_sum s hf.expf_lt_pow hf.mant_lt, packNat]

end Exact

/-! ### What the encoder can answer -/

theorem roundMag_le {M : Mag} {j : Int} {n : Nat} (h : magValue M ≤ n * pow2 j) (rm : RoundMode) :
    roundMag M j rm ≤ n := by
  refine arbiter_le (by positivity) ?_ rm
  have hdiv := div_le_of_le_mul₀ (pow2_pos j).le (Nat.cast_nonneg n) h
  rw [magValue_div_pow2, div_le_iff₀ (by positivity)] at hdiv
  exact_mod_cast hdiv

/-- Both branches of the normalizer leave a mantissa that fits its field or is one carry above it. -/
theorem normalizer_mant_le {M : Mag} (hM : M.sig ≠ 0) (F : Descriptor) (rm : RoundMode) :
    (normalizer M F rm).mant ≤ 2 ^ F.mbits := by
  unfold normalizer
  split
  next hbelow =>
    apply roundMag_le
    rw [← pow2_natCast, ← pow2_add, add_sub_cancel]
    exact ((magBelow_iff M _).1 hbelow).le
  next =>
    apply roundMag_le
    rw [← pow2_natCast, ← pow2_add, add_sub_cancel, magFraction_value hM, magLog2_eq_log hM]
    have hlog := Int.lt_zpow_succ_log_self (b := 2) (by norm_num) (magValue M)
    rw [zpow_add_one₀ (by norm_num)] at hlog
    simp only [pow2]
    push_cast at hlog
    linarith

/-- The five special patterns of a row, each with the constant of R23 and the class it is read as. -/
def specialReadings (F : Descriptor) : List (Pattern × Reading) :=
  [(F.nan, ⟨qnan64, .nan⟩), (F.pinf, ⟨pinf64, .pinf⟩), (F.ninf, ⟨ninf64, .ninf⟩),
    (F.nzero, ⟨nzero64, .nzero⟩), (F.pzero, ⟨pzero64, .pzero⟩)]

/-- The five special patterns of a row (R90). -/
def specialPatterns (F : Descriptor) : List Pattern := (specialReadings F).map Prod.fst

/-- Zero fields spell the signed zero of each row of the table (R90). -/
theorem ofNat_packNat_zero (f : Fmt) (s : Bool) :
    BitVec.ofNat 128 (packNat (desc f) s 0 0) = if s then (desc f).nzero else (desc f).pzero := by
  cases f <;> cases s <;> rfl

/-- The encoder overflows to an infinity, underflows to a zero, or answers a finite pattern. -/
theorem encodeMag_cases (f : Fmt) {M : Mag} (hM : M.sig ≠ 0) (s : Bool) (rm : RoundMode) :
    encodeMag s M (desc f) rm ∈ specialPatterns (desc f) ∨
      ∃ E T, FiniteFields (desc f) E T ∧
        encodeMag s M (desc f) rm = BitVec.ofNat 128 (packNat (desc f) s E T) := by
  have hmant := carry_mant_lt (normalizer_mant_le hM (desc f) rm)
  obtain ⟨-, hinf⟩ | ⟨hexp, hpack⟩ := compositor_cases (desc f) s (normalizer M (desc f) rm)
  · left
    rw [encodeMag, hinf]
    cases s <;> simp [specialPatterns, specialReadings]
  · rw [encodeMag, hpack, pack_eq_sum s (by omega) hmant, ← packNat]
    generalize (carry (desc f) (normalizer M (desc f) rm)).expf = E at hexp ⊢
    generalize (carry (desc f) (normalizer M (desc f) rm)).mant = T at hmant ⊢
    by_cases hzero : E = 0 ∧ T = 0
    · left
      obtain ⟨rfl, rfl⟩ := hzero
      rw [ofNat_packNat_zero]
      cases s <;> simp [specialPatterns, specialReadings]
    · exact .inr ⟨E, T, ⟨hexp, hmant, fun hE hT => hzero ⟨hE, hT⟩⟩, rfl⟩

/-! ### Magnitudes two formats share -/

/-- `q` is the magnitude of a finite non-zero pattern of row `F`. -/
def IsMagnitude (F : Descriptor) (q : Rat) : Prop :=
  ∃ E T, FiniteFields F E T ∧ q = magValue (fieldMag F E T)

/-- A significand of at most `mbits + 1` bits, with no bit below the smallest subnormal and none above the
largest exponent, is the magnitude of a pattern. -/
theorem isMagnitude_dyadic {G : Descriptor} {n : Nat} {k : Int} (hn : n ≠ 0) (hlt : n < 2 ^ (G.mbits + 1))
    (hlow : 1 - (G.bias : Int) - (G.mbits : Int) ≤ k) (hhigh : k + G.mbits + G.bias + 2 ≤ (2 ^ G.ebits : Nat)) :
    IsMagnitude G (n * pow2 k) := by
  have hl : Nat.log2 n ≤ G.mbits := Nat.lt_succ_iff.1 ((Nat.log2_lt hn).2 hlt)
  have hle := Nat.log2_self_le hn
  have hgt := Nat.lt_log2_self (n := n)
  by_cases hsub : (Nat.log2 n : Int) + k + G.bias < 1
  · obtain ⟨j, hj⟩ := Int.le.dest hlow
    refine ⟨0, n * 2 ^ j, ⟨by omega, ?_, fun _ => by positivity⟩, ?_⟩
    · calc n * 2 ^ j < 2 ^ (Nat.log2 n + 1) * 2 ^ j := Nat.mul_lt_mul_of_pos_right hgt (by positivity)
        _ = 2 ^ (Nat.log2 n + 1 + j) := (pow_add ..).symm
        _ ≤ 2 ^ G.mbits := Nat.pow_le_pow_right (by norm_num) (by omega)
    · rw [← hj, add_comm, pow2_add, pow2_natCast]
      simp only [fieldMag, magValue, if_pos]
      push_cast
      ring
  · obtain ⟨E, hE⟩ := Int.eq_ofNat_of_zero_le (by omega : 0 ≤ (Nat.log2 n : Int) + k + G.bias)
    obtain ⟨j, hj⟩ := Nat.exists_eq_add_of_le hl
    have hlead : 2 ^ G.mbits ≤ n * 2 ^ j := by
      rw [hj, pow_add]; exact Nat.mul_le_mul_right _ hle
    have htop : n * 2 ^ j < 2 ^ G.mbits * 2 := by
      rw [hj, pow_add, mul_right_comm, ← pow_succ]
      exact Nat.mul_lt_mul_of_pos_right hgt (by positivity)
    refine ⟨E, n * 2 ^ j - 2 ^ G.mbits, ⟨by omega, by omega, by omega⟩, ?_⟩
    have hk : k = (j : Int) + ((E : Int) - G.bias - G.mbits) := by omega
    rw [hk, pow2_add, pow2_natCast, fieldMag, if_neg (by omega), magValue]
    simp only [Nat.add_sub_cancel' hlead]
    push_cast
    ring

/-- The finite patterns of row `F` lie within the precision and the exponent range of row `G`. -/
def Fits (F G : Descriptor) : Prop :=
  3 ≤ 2 ^ F.ebits ∧ F.mbits ≤ G.mbits ∧ F.bias + F.mbits ≤ G.bias + G.mbits ∧
    2 ^ F.ebits + G.bias + G.mbits ≤ 2 ^ G.ebits + F.bias + F.mbits

theorem desc_fits_binary64 {f : Fmt} (h : f ≠ .b128) : Fits (desc f) f64 := by
  unfold Fits
  cases f with
  | b128 => exact absurd rfl h
  | _ => decide

theorem binary64_fits_binary128 : Fits f64 (desc .b128) := by
  unfold Fits
  decide

theorem isMagnitude_of_fits {F G : Descriptor} (hfit : Fits F G) {E T : Nat} (hf : FiniteFields F E T) :
    IsMagnitude G (magValue (fieldMag F E T)) := by
  obtain ⟨hexps, hmbits, hbottom, htop⟩ := hfit
  obtain ⟨hexp, hmant, hzero⟩ := hf
  have hprec : 2 ^ (F.mbits + 1) ≤ 2 ^ (G.mbits + 1) := Nat.pow_le_pow_right (by norm_num) (by omega)
  rw [pow_succ] at hprec
  by_cases hE : E = 0
  · have hmag : magValue (fieldMag F E T) = T * pow2 (1 - (F.bias : Int) - (F.mbits : Int)) := by
      simp [fieldMag, magValue, hE]
    rw [hmag]
    exact isMagnitude_dyadic (hzero hE) (by omega) (by omega) (by omega)
  · have hmag : magValue (fieldMag F E T) =
        (2 ^ F.mbits + T : Nat) * pow2 ((E : Int) - (F.bias : Int) - (F.mbits : Int)) := by
      simp [fieldMag, magValue, hE]
    rw [hmag]
    exact isMagnitude_dyadic (Nat.add_pos_left (by positivity) T).ne' (by omega) (by omega) (by omega)

/-! ### Finite value words and finite patterns are read by their fields -/

theorem fieldMag_sig_ne_zero {F : Descriptor} {E T : Nat} (hf : FiniteFields F E T) :
    (fieldMag F E T).sig ≠ 0 := by
  unfold fieldMag
  split
  next hE => exact hf.ne_zero hE
  next => exact (Nat.add_pos_left (by positivity) T).ne'

/-- The sign of a value word is the sign field of its binary64 pattern (R22). -/
theorem getMsbD_eq_signField (d : Word) : d.getMsbD 0 = signField f64 d.toNat := by
  simp [BitVec.getMsbD, BitVec.getLsbD, Nat.testBit_eq_decide_div_mod_eq, signField, slice, desc, beq_eq_decide]

/-- A word with finite non-zero fields denotes their magnitude (R22). -/
theorem val64_packNat {s : Bool} {E T : Nat} (hf : FiniteFields f64 E T) :
    val64 (BitVec.ofNat 64 (packNat f64 s E T)) = .finite s (fieldMag f64 E T) := by
  have hE := hf.expf_lt_pow
  obtain ⟨hexp, hmant, hzero⟩ := hf
  have hnat : (BitVec.ofNat 64 (packNat f64 s E T)).toNat = packNat f64 s E T :=
    (BitVec.toNat_ofNat _ _).trans (Nat.mod_eq_of_lt (packNat_lt s hE hmant))
  unfold val64
  rw [getMsbD_eq_signField, hnat, signField_packNat s hE hmant]
  have hexpf : slice (packNat f64 s E T) 52 11 = E := expField_packNat s hE hmant
  have hmantf : slice (packNat f64 s E T) 0 52 = T := mantField_packNat s hmant
  have hne : E ≠ 2047 := hexp.ne
  simp only [hexpf, hmantf, if_neg hne]
  by_cases h0 : E = 0
  · simp [h0, hzero h0, fieldMag, desc]
  · simp [h0, fieldMag, desc]

/-- A word that denotes a finite non-zero value has finite non-zero fields. -/
theorem exists_fields_of_val64 {d : Word} {s : Bool} {M : Mag} (h : val64 d = .finite s M) :
    ∃ E T, FiniteFields f64 E T ∧ M = fieldMag f64 E T := by
  refine ⟨slice d.toNat 52 11, slice d.toNat 0 52, ?_⟩
  have hexp : slice d.toNat 52 11 < 2048 := Nat.mod_lt _ (by norm_num)
  have hmant : slice d.toNat 0 52 < 2 ^ 52 := Nat.mod_lt _ (by norm_num)
  generalize hE : slice d.toNat 52 11 = E at hexp
  generalize hT : slice d.toNat 0 52 = T at hmant
  simp only [val64, hE, hT] at h
  split_ifs at h with h1 h2 h3 h4
  · cases h
    exact ⟨⟨by rw [h3]; decide, hmant, fun _ => h4⟩, by simp [fieldMag, h3, desc]⟩
  · cases h
    exact ⟨⟨by simp only [desc]; omega, hmant, fun h0 => absurd h0 h3⟩, by simp [fieldMag, h3, desc]⟩

/-- The five special patterns have an all-ones exponent field, or a zero one with a zero mantissa field. -/
theorem fields_of_specialPatterns (f : Fmt) : ∀ p ∈ specialPatterns (desc f),
    expField (desc f) p.toNat = 2 ^ (desc f).ebits - 1 ∨
      expField (desc f) p.toNat = 0 ∧ mantField (desc f) p.toNat = 0 := by
  cases f <;> simp [specialPatterns, specialReadings, desc, expField, mantField, slice]

theorem packNat_ne_special (f : Fmt) (s : Bool) {E T : Nat} (hf : FiniteFields (desc f) E T) :
    ∀ p ∈ specialPatterns (desc f), packNat (desc f) s E T ≠ p.toNat := by
  intro p hp heq
  have hfields := fields_of_specialPatterns f p hp
  rw [← heq, expField_packNat s hf.expf_lt_pow hf.mant_lt, mantField_packNat s hf.mant_lt] at hfields
  obtain hones | ⟨hE0, hT0⟩ := hfields
  · exact hf.expf_lt.ne hones
  · exact hf.ne_zero hE0 hT0

theorem patWidth_desc_le (f : Fmt) : patWidth (desc f) ≤ 128 := by cases f <;> decide

/-- A finite non-zero pattern is none of the special five, so the decoder reads it by its fields (R153, R155). -/
theorem decodePattern_packNat (f : Fmt) (s : Bool) {E T : Nat} (hf : FiniteFields (desc f) E T)
    (rm : RoundMode) : decodePattern (BitVec.ofNat 128 (packNat (desc f) s E T)) (desc f) rm =
      ⟨outputStage s (fieldMag (desc f) E T) rm, if E = 0 then .subnormal else .normal⟩ := by
  have hE := hf.expf_lt_pow
  have hlt := packNat_lt s hE hf.mant_lt
  have hread : (BitVec.ofNat 128 (packNat (desc f) s E T)).toNat % 2 ^ patWidth (desc f) =
      packNat (desc f) s E T := by
    rw [BitVec.toNat_ofNat, Nat.mod_mod_of_dvd _ (Nat.pow_dvd_pow 2 (patWidth_desc_le f)),
      Nat.mod_eq_of_lt hlt]
  have hspecial := packNat_ne_special f s hf
  simp only [specialPatterns, specialReadings, List.map_cons, List.forall_mem_cons] at hspecial
  obtain ⟨hnan, hpinf, hninf, hnzero, hpzero, -⟩ := hspecial
  simp only [decodePattern, hread, if_neg hnan, if_neg hpinf, if_neg hninf, if_neg hnzero, if_neg hpzero,
    expField_packNat s hE hf.mant_lt, mantField_packNat s hf.mant_lt, signField_packNat s hE hf.mant_lt,
    decodeFields, fieldMag]
  by_cases h0 : E = 0
  · simp [h0, hf.ne_zero h0]
  · simp [h0, hf.expf_lt.ne]

/-! ### `ROUND` is idempotent -/

/-- A decode and an encode, each in any mode, return the pattern `p`, and its reading is the same in every
mode (R131 (e), R157, R172). -/
def RoundTrips (F : Descriptor) (p : Pattern) : Prop :=
  ∃ r : Reading, ∀ rm, decodePattern p F rm = r ∧ encodeWord r.word F rm = p

theorem decodePattern_special (f : Fmt) (rm : RoundMode) : ∀ x ∈ specialReadings (desc f),
    decodePattern x.1 (desc f) rm = x.2 := by
  cases f <;> simp [specialReadings, decodePattern, desc, patWidth]

/-- What the constants of R23 denote. -/
theorem val64_constants : val64 qnan64 = .nan ∧ val64 pinf64 = .inf false ∧ val64 ninf64 = .inf true ∧
    val64 nzero64 = .zero true ∧ val64 pzero64 = .zero false := by
  decide

theorem encodeWord_special (F : Descriptor) (rm : RoundMode) : ∀ x ∈ specialReadings F,
    encodeWord x.2.word F rm = x.1 := by
  simp [specialReadings, encodeWord, val64_constants]

theorem roundTrips_special (f : Fmt) : ∀ p ∈ specialPatterns (desc f), RoundTrips (desc f) p := by
  intro p hp
  obtain ⟨x, hx, rfl⟩ := List.mem_map.1 hp
  exact ⟨x.2, fun rm => ⟨decodePattern_special f rm x hx, encodeWord_special (desc f) rm x hx⟩⟩

/-- A finite non-zero value is the one kind of word `EncodeMag` sees (R121). -/
theorem encodeWord_of_finite {d : Word} {s : Bool} {M : Mag} (h : val64 d = .finite s M) (F : Descriptor)
    (rm : RoundMode) : encodeWord d F rm = encodeMag s M F rm := by
  simp only [encodeWord, h]

/-- A finite pattern whose magnitude a value word holds: both directions are exact. -/
theorem roundTrips_packNat (f : Fmt) (s : Bool) {E T : Nat} (hf : FiniteFields (desc f) E T)
    (h64 : IsMagnitude f64 (magValue (fieldMag (desc f) E T))) :
    RoundTrips (desc f) (BitVec.ofNat 128 (packNat (desc f) s E T)) := by
  obtain ⟨E', T', hf', hmag⟩ := h64
  refine ⟨⟨BitVec.ofNat 64 (packNat f64 s E' T'), if E = 0 then .subnormal else .normal⟩, fun rm => ⟨?_, ?_⟩⟩
  · rw [decodePattern_packNat f s hf, outputStage, encodeMag_exact hf' hmag,
      BitVec.setWidth_ofNat_of_le (by norm_num)]
  · rw [encodeWord_of_finite (val64_packNat hf'), encodeMag_exact hf hmag.symm]

/-- Every pattern the encoder answers: binary128 holds each value word exactly, and the values of the other
formats are value words. -/
theorem roundTrips_encodeWord (f : Fmt) (d : Word) (rm : RoundMode) :
    RoundTrips (desc f) (encodeWord d (desc f) rm) := by
  unfold encodeWord
  cases hd : val64 d with
  | nan => exact roundTrips_special f _ (by simp [specialPatterns, specialReadings])
  | inf s => exact roundTrips_special f _ (by cases s <;> simp [specialPatterns, specialReadings])
  | zero s => exact roundTrips_special f _ (by cases s <;> simp [specialPatterns, specialReadings])
  | finite s M =>
    obtain ⟨E, T, hf, rfl⟩ := exists_fields_of_val64 hd
    simp only
    by_cases hwide : f = .b128
    · subst hwide
      obtain ⟨E', T', hf', hmag⟩ := isMagnitude_of_fits binary64_fits_binary128 hf
      rw [encodeMag_exact hf' hmag]
      exact roundTrips_packNat .b128 s hf' ⟨E, T, hf, hmag.symm⟩
    · obtain hspecial | ⟨E', T', hf', hpack⟩ := encodeMag_cases f (fieldMag_sig_ne_zero hf) s rm
      · exact roundTrips_special f _ hspecial
      · rw [hpack]
        exact roundTrips_packNat f s hf' (isMagnitude_of_fits (desc_fits_binary64 hwide) hf')

/-- A second round trip of the same format, in either mode, adds nothing (R172). -/
theorem roundTo_roundTo (f : Fmt) (d : Word) (rm rm' : RoundMode) :
    roundTo (roundTo d (desc f) rm).2.word (desc f) rm' = roundTo d (desc f) rm := by
  obtain ⟨r, hr⟩ := roundTrips_encodeWord f d rm
  simp only [roundTo, (hr rm).1, (hr rm').1, (hr rm').2]

theorem exec_desc_of_field {f : Fmt} {sel : BitVec 4} {v : Pattern} (h : descField (desc f) sel = some v)
    (s : State) : exec (.desc f sel) s = .next (complete .none false { s with pat := v }) := by
  simp only [exec, execDesc, h]

theorem exec_desc_of_reserved {f : Fmt} {sel : BitVec 4} (h : descField (desc f) sel = none) (s : State) :
    exec (.desc f sel) s = .next (refuse .reservedField s) := by
  simp only [exec, execDesc, h]

/-- A command repeated changes nothing more: none but `ROUND` reads a register it writes (R58, R36). -/
theorem exec_idempotent (i : Instr) (s : State) : ∃ t, exec i s = .next t ∧ exec i t = .next t := by
  cases i with
  | classify f => exact ⟨_, exec_classify f s, exec_classify f _⟩
  | encode f rm => exact ⟨_, exec_encode f rm s, exec_encode f rm _⟩
  | decode f rm => exact ⟨_, exec_decode f rm s, exec_decode f rm _⟩
  | round f rm =>
    refine ⟨_, exec_round f rm s, ?_⟩
    rw [exec_round, complete_val, roundTo_roundTo]
    rfl
  | isfloat f rm => exact ⟨_, exec_isfloat f rm s, exec_isfloat f rm _⟩
  | desc f sel =>
    cases h : descField (desc f) sel with
    | some v => exact ⟨_, exec_desc_of_field h s, exec_desc_of_field h _⟩
    | none =>
      refine ⟨_, exec_desc_of_reserved h s, ?_⟩
      rw [exec_desc_of_reserved h, refuse_refuse (by decide)]
  | clrerr => exact ⟨_, exec_clrerr s, exec_clrerr _⟩

/-! ### The register map -/

theorem slotOf_eq_unmapped_iff (i : Index) : slotOf i = .unmapped ↔ 5 ≤ i.toNat := by
  revert i; decide

theorem patLo_eq_ofNat (p : Pattern) : patLo p = BitVec.ofNat 64 (p.toNat % 2 ^ 64) := by
  apply BitVec.eq_of_toNat_eq
  simp [patLo]

theorem patHi_eq_ofNat (p : Pattern) : patHi p = BitVec.ofNat 64 (p.toNat / 2 ^ 64) := by
  apply BitVec.eq_of_toNat_eq
  simp [patHi, Nat.shiftRight_eq_div_pow]

theorem statusWord_eq_ofNat (s : State) : statusWord s =
    BitVec.ofNat 64 ((clsCode s.cls).toNat + 8 * s.q.toNat + 16 * (errBits s.err).toNat) := by
  rw [← statusWord_toNat, BitVec.ofNat_toNat, BitVec.setWidth_eq]

section Port
variable {i : Index} (v : Word) (s : State)

theorem regWrite_patLo : regWrite 1#3 v s = .next { s with pat := patJoin (patHi s.pat) v } := rfl

theorem regWrite_patHi : regWrite 2#3 v s = .next { s with pat := patJoin v (patLo s.pat) } := rfl

theorem regRead_unmapped (hi : 5 ≤ i.toNat) : regRead i s = (0#64, refuse .badAccess s) := by
  obtain ⟨-, hmapped⟩ | ⟨hread, -⟩ := regRead_state i s
  · exact absurd ((slotOf_eq_unmapped_iff i).2 hi) hmapped
  · exact hread

theorem regRead_mapped_state (hi : i.toNat ≤ 4) : (regRead i s).2 = s := by
  obtain ⟨hread, -⟩ | ⟨-, hunmapped⟩ := regRead_state i s
  · exact hread
  · have := (slotOf_eq_unmapped_iff i).1 hunmapped
    omega

theorem regWrite_accepted {c : Instr} (h : decode v = .accepted c) : regWrite 3#3 v s = exec c s := by
  change command v s = _
  rw [command, h]

theorem regWrite_refused {e : ErrCode} (h : decode v = .refused e) :
    regWrite 3#3 v s = .next (refuse e s) := by
  change command v s = _
  rw [command, h]

theorem regWrite_unwritable (hi : 4 ≤ i.toNat) : regWrite i v s = .next (refuse .badAccess s) := by
  obtain ⟨rfl, -⟩ | ⟨rfl, -⟩ | ⟨rfl, -⟩ | ⟨rfl, -⟩ | ⟨rfl, -⟩ | ⟨-, hbad⟩ := regWrite_cases i v s
  case inr.inr.inr.inr.inr => exact hbad
  all_goals exact absurd hi (by decide)

end Port

/-- Settles O4: the words at 1, 2 and 4 by their numeric forms. -/
theorem registerReadsFollowTheMap : Obligations.RegisterReadsFollowTheMap := by
  intro s
  rw [← patLo_eq_ofNat, ← patHi_eq_ofNat, ← statusWord_eq_ofNat]
  exact ⟨rfl, rfl, rfl, rfl, rfl, fun i hi => regRead_unmapped s hi⟩

/-- Settles O6: the register map on writes, `refuse` being the latch's rule by definition. -/
theorem registerWritesFollowTheMap : Obligations.RegisterWritesFollowTheMap := fun s v =>
  ⟨rfl, regWrite_patLo v s, regWrite_patHi v s, fun _ h => regWrite_accepted v s h,
    fun _ h => regWrite_refused v s h, fun _ hi => regWrite_unwritable v s hi⟩

/-! ### Every access is idempotent -/

/-- A write repeated leaves the state of the first: an operand register takes the same word again, a command
is `exec_idempotent`, and a second refusal finds the latch taken. -/
theorem regWrite_idempotent (i : Index) (v : Word) (s : State) :
    ∃ t, regWrite i v s = .next t ∧ regWrite i v t = .next t := by
  obtain ⟨rfl, hval⟩ | ⟨rfl, hlo⟩ | ⟨rfl, hhi⟩ | ⟨rfl, c, hdec, hcmd⟩ | ⟨rfl, e, hdec, hrefused⟩ |
    ⟨hi, hbad⟩ := regWrite_cases i v s
  · exact ⟨_, hval, rfl⟩
  · refine ⟨_, hlo, ?_⟩
    simp only [regWrite_patLo, patHi_patJoin]
  · refine ⟨_, hhi, ?_⟩
    simp only [regWrite_patHi, patLo_patJoin]
  · obtain ⟨t, hfirst, hsecond⟩ := exec_idempotent c s
    exact ⟨t, hcmd.trans hfirst, (regWrite_accepted v t hdec).trans hsecond⟩
  · refine ⟨_, hrefused, ?_⟩
    rw [regWrite_refused v _ hdec, refuse_refuse (decode_refused_ne_none hdec)]
  · refine ⟨_, hbad, ?_⟩
    rw [regWrite_unwritable v _ hi, refuse_refuse (by decide)]

/-- A read at 0 to 4 finds the state unchanged; one at 5 to 7 answers zero in every state. -/
theorem regRead_idempotent (i : Index) (s : State) : (regRead i (regRead i s).2).1 = (regRead i s).1 := by
  obtain hi | hi := Nat.lt_or_ge i.toNat 5
  · rw [regRead_mapped_state s (by omega)]
  · rw [regRead_unmapped s hi, regRead_unmapped _ hi]

/-- Settles O8: writes by `regWrite_idempotent`, whose one hard case is `ROUND`; reads by the register map. -/
theorem repeatedAccessChangesNothingMore : Obligations.RepeatedAccessChangesNothingMore := by
  refine ⟨regWrite_idempotent, regRead_idempotent, fun i s hi => regRead_mapped_state s hi, fun i s hi => ?_⟩
  rw [regRead_unmapped s hi]
  rfl

/-! ### The step is one transaction -/

theorem step_of_pending {s : State} {t : Transaction} {ts : List Transaction} (h : s.pending = t :: ts) :
    step s = deliver t { s with pending := ts } := by
  rw [step, advance, h]

theorem step_of_idle {s : State} (h : s.pending = []) : step s = .next s := by
  rw [step, advance, h]

/-- Settles O15: `step` is `deliver` of the head of the queue, whose three arms are the three cases. -/
theorem stepPerformsTheFirstPendingTransaction : Obligations.StepPerformsTheFirstPendingTransaction :=
  ⟨fun _ h => step_of_idle h, fun _ _ _ h => step_of_pending h, fun _ _ _ _ h => step_of_pending h,
    fun _ _ h => step_of_pending h⟩

end Sys2Proof.Machine
end

/-! The command word (spec/30_encoding.md): the decoder and the encoder are inverse to each other, the 73
accepted words, the checks of R76, and the results of the pseudo-instructions of R82. -/

namespace Sys2Proof

/-! ### The fields of a composed word -/

/-- The word whose four fields hold the given values (R84). -/
def fieldWord (op : BitVec 4) (f : Fmt) (r : RoundMode) (sel : BitVec 4) : Word :=
  composeWord op.toNat (fmtCode f) (rmCode r) sel.toNat

section FieldWord
variable (op : BitVec 4) (f : Fmt) (r : RoundMode) (sel : BitVec 4)

/-- The fields by their weights: they do not overlap (R70). -/
theorem fieldWord_toNat : (fieldWord op f r sel).toNat =
    op.toNat + 2 ^ 4 * fmtCode f + 2 ^ 6 * rmCode r + 2 ^ 8 * sel.toNat := by
  have hop := op.isLt
  have hf := fmtCode_lt f
  have hr := rmCode_lt r
  have hsel := sel.isLt
  have hor : op.toNat ||| fmtCode f <<< 4 ||| rmCode r <<< 6 ||| sel.toNat <<< 8 =
      op.toNat + 2 ^ 4 * fmtCode f + 2 ^ 6 * rmCode r + 2 ^ 8 * sel.toNat := by
    rw [Nat.or_comm op.toNat, ← Nat.shiftLeft_add_eq_or_of_lt hop, Nat.shiftLeft_eq,
      Nat.or_comm _ (rmCode r <<< 6), ← Nat.shiftLeft_add_eq_or_of_lt (by omega), Nat.shiftLeft_eq,
      Nat.or_comm _ (sel.toNat <<< 8), ← Nat.shiftLeft_add_eq_or_of_lt (by omega), Nat.shiftLeft_eq]
    omega
  rw [fieldWord, composeWord, hor, BitVec.toNat_ofNat, Nat.mod_eq_of_lt (by omega)]

theorem opField_fieldWord : opField (fieldWord op f r sel) = op := by
  have hop := op.isLt
  apply BitVec.eq_of_toNat_eq
  rw [opField, BitVec.extractLsb'_toNat, fieldWord_toNat, Nat.shiftRight_eq_div_pow]
  omega

theorem fmtOf_fmtField_fieldWord : fmtOf (fmtField (fieldWord op f r sel)) = f := by
  have hop := op.isLt
  have hf := fmtCode_lt f
  have hfield : fmtField (fieldWord op f r sel) = BitVec.ofNat 2 (fmtCode f) := by
    apply BitVec.eq_of_toNat_eq
    rw [fmtField, BitVec.extractLsb'_toNat, fieldWord_toNat, Nat.shiftRight_eq_div_pow, BitVec.toNat_ofNat]
    omega
  rw [hfield, fmtOf_fmtCode]

theorem rmOf_rmField_fieldWord : rmOf (rmField (fieldWord op f r sel)) = r := by
  have hop := op.isLt
  have hf := fmtCode_lt f
  have hr := rmCode_lt r
  have hfield : rmField (fieldWord op f r sel) = BitVec.ofNat 1 (rmCode r) := by
    apply BitVec.eq_of_toNat_eq
    rw [rmField, BitVec.extractLsb'_toNat, fieldWord_toNat, Nat.shiftRight_eq_div_pow, BitVec.toNat_ofNat]
    omega
  rw [hfield, rmOf_rmCode]

theorem selField_fieldWord : selField (fieldWord op f r sel) = sel := by
  have hop := op.isLt
  have hf := fmtCode_lt f
  have hr := rmCode_lt r
  have hsel := sel.isLt
  apply BitVec.eq_of_toNat_eq
  rw [selField, BitVec.extractLsb'_toNat, fieldWord_toNat, Nat.shiftRight_eq_div_pow]
  omega

end FieldWord

/-! ### Decoding an encoded command -/

open Laws.MatchesRow (row)

/-- The mask test of R76 passes on the word of every command (R83). -/
theorem encode_and_opMask (i : Instr) : encode i &&& opMask (row i) = opMatch (row i) := by
  cases i with
  | classify f => exact Laws.MatchesRow.classify f
  | encode f r => exact Laws.MatchesRow.encode f r
  | decode f r => exact Laws.MatchesRow.decode f r
  | round f r => exact Laws.MatchesRow.round f r
  | isfloat f r => exact Laws.MatchesRow.isfloat f r
  | desc f sel => exact Laws.MatchesRow.desc f sel
  | clrerr => exact Laws.MatchesRow.clrerr

theorem opOf_opField_encode (i : Instr) : opOf (opField (encode i)) = some (row i) := by
  cases i with
  | classify f => exact congrArg opOf (opField_fieldWord 1#4 f .rha 0#4)
  | encode f r => exact congrArg opOf (opField_fieldWord 2#4 f r 0#4)
  | decode f r => exact congrArg opOf (opField_fieldWord 3#4 f r 0#4)
  | round f r => exact congrArg opOf (opField_fieldWord 4#4 f r 0#4)
  | isfloat f r => exact congrArg opOf (opField_fieldWord 5#4 f r 0#4)
  | desc f sel => exact congrArg opOf (opField_fieldWord 6#4 f .rha sel)
  | clrerr => rfl

theorem selField_encode_desc (f : Fmt) (sel : BitVec 4) : selField (encode (.desc f sel)) = sel :=
  selField_fieldWord 6#4 f .rha sel

/-- Every operand of a command is read back from its word, a reserved selector too. -/
theorem operands_encode (i : Instr) : operands (row i) (encode i) = i := by
  cases i with
  | classify f => exact congrArg Instr.classify (fmtOf_fmtField_fieldWord 1#4 f .rha 0#4)
  | encode f r =>
    exact congrArg₂ Instr.encode (fmtOf_fmtField_fieldWord 2#4 f r 0#4) (rmOf_rmField_fieldWord 2#4 f r 0#4)
  | decode f r =>
    exact congrArg₂ Instr.decode (fmtOf_fmtField_fieldWord 3#4 f r 0#4) (rmOf_rmField_fieldWord 3#4 f r 0#4)
  | round f r =>
    exact congrArg₂ Instr.round (fmtOf_fmtField_fieldWord 4#4 f r 0#4) (rmOf_rmField_fieldWord 4#4 f r 0#4)
  | isfloat f r =>
    exact congrArg₂ Instr.isfloat (fmtOf_fmtField_fieldWord 5#4 f r 0#4) (rmOf_rmField_fieldWord 5#4 f r 0#4)
  | desc f sel =>
    exact congrArg₂ Instr.desc (fmtOf_fmtField_fieldWord 6#4 f .rha sel) (selField_encode_desc f sel)
  | clrerr => rfl

/-- R76 for a word of a legal operation: checks (2) and (3), then the operands. -/
theorem decode_of_opOf {w : Word} {o : Op} (h : opOf (opField w) = some o) : decode w =
    if w &&& opMask o ≠ opMatch o then .refused .reservedField
    else if o = .desc ∧ 8 < (selField w).toNat then .refused .reservedField
    else .accepted (operands o w) := by
  simp only [decode, h]

theorem decode_of_opOf_eq_none {w : Word} (h : opOf (opField w) = none) :
    decode w = .refused .illegalOpcode := by
  simp only [decode, h]

theorem decode_encode (i : Instr) (hi : WellFormed i = true) : decode (encode i) = .accepted i := by
  have hsel : ¬ (row i = .desc ∧ 8 < (selField (encode i)).toNat) := by
    rintro ⟨hrow, hlt⟩
    cases i with
    | desc f sel =>
      rw [selField_encode_desc] at hlt
      have := (Machine.wellFormed_desc_iff f sel).1 hi
      omega
    | _ => cases hrow
  rw [decode_of_opOf (opOf_opField_encode i), if_neg (not_not.2 (encode_and_opMask i)), if_neg hsel,
    operands_encode]

/-- Settles O9: the encoder sets the bits the decoder checks (`encode_and_opMask`), and its fields are the
operands the decoder reads (`operands_encode`). -/
theorem decodeInvertsEncode : Obligations.DecodeInvertsEncode := decode_encode

/-! ### Encoding a decoded word -/

theorem fmtOf_injective {a b : BitVec 2} (h : fmtOf a = fmtOf b) : a = b := by
  revert a b; decide

theorem rmOf_injective {a b : BitVec 1} (h : rmOf a = rmOf b) : a = b := by
  revert a b; decide

theorem row_operands (o : Op) (w : Word) : row (operands o w) = o := by
  cases o <;> rfl

/-- Where the mask of an operation is zero there stands a field it uses: `FMT` in bits 4 and 5, `RM` in bit
6, `SEL` in bits 8 to 11 (R70, R75, R83). -/
theorem opMask_getLsbD_eq_false (o : Op) : ∀ n : Fin 64, (opMask o).getLsbD n = false →
    match o with
    | .classify => 4 ≤ n.val ∧ n.val < 6
    | .encode | .decode | .round | .isfloat => (4 ≤ n.val ∧ n.val < 6) ∨ n.val = 6
    | .desc => (4 ≤ n.val ∧ n.val < 6) ∨ (8 ≤ n.val ∧ n.val < 12)
    | .clrerr => False := by
  cases o <;> decide

section SameOperands
variable {u w : Word} {n : Nat}

theorem getLsbD_eq_of_fmtOf (h : fmtOf (fmtField u) = fmtOf (fmtField w)) (hn : 4 ≤ n ∧ n < 6) :
    u.getLsbD n = w.getLsbD n := by
  have hbit := congrArg (fun b => b.getLsbD (n - 4)) (fmtOf_injective h)
  simpa [fmtField, show n - 4 < 2 by omega, Nat.add_sub_cancel' hn.1] using hbit

theorem getLsbD_eq_of_rmOf (h : rmOf (rmField u) = rmOf (rmField w)) : u.getLsbD 6 = w.getLsbD 6 := by
  have hbit := congrArg (fun b => b.getLsbD 0) (rmOf_injective h)
  simpa [rmField] using hbit

theorem getLsbD_eq_of_selField (h : selField u = selField w) (hn : 8 ≤ n ∧ n < 12) :
    u.getLsbD n = w.getLsbD n := by
  have hbit := congrArg (fun b => b.getLsbD (n - 8)) h
  simpa [selField, show n - 8 < 4 by omega, Nat.add_sub_cancel' hn.1] using hbit

/-- The operations with a format and a mode share one layout. -/
theorem getLsbD_eq_of_fmtOf_rmOf
    (h : fmtOf (fmtField u) = fmtOf (fmtField w) ∧ rmOf (rmField u) = rmOf (rmField w))
    (hn : (4 ≤ n ∧ n < 6) ∨ n = 6) : u.getLsbD n = w.getLsbD n := by
  obtain hfmt | rfl := hn
  · exact getLsbD_eq_of_fmtOf h.1 hfmt
  · exact getLsbD_eq_of_rmOf h.2

/-- Words with the same operands agree outside their operation's mask. -/
theorem getLsbD_eq_of_operands {o : Op} (h : operands o u = operands o w) (n : Fin 64)
    (hn : (opMask o).getLsbD n = false) : u.getLsbD n = w.getLsbD n := by
  have hfield := opMask_getLsbD_eq_false o n hn
  cases o with
  | classify => exact getLsbD_eq_of_fmtOf (Instr.classify.inj h) hfield
  | encode => exact getLsbD_eq_of_fmtOf_rmOf (Instr.encode.inj h) hfield
  | decode => exact getLsbD_eq_of_fmtOf_rmOf (Instr.decode.inj h) hfield
  | round => exact getLsbD_eq_of_fmtOf_rmOf (Instr.round.inj h) hfield
  | isfloat => exact getLsbD_eq_of_fmtOf_rmOf (Instr.isfloat.inj h) hfield
  | desc =>
    obtain ⟨hfmt, hsel⟩ := Instr.desc.inj h
    obtain hn | hn := hfield
    · exact getLsbD_eq_of_fmtOf hfmt hn
    · exact getLsbD_eq_of_selField hsel hn
  | clrerr => exact hfield.elim

/-- Two words that pass one operation's mask test with the same operands are one word (R75). -/
theorem eq_of_operands {o : Op} (hu : u &&& opMask o = opMatch o) (hw : w &&& opMask o = opMatch o)
    (h : operands o u = operands o w) : u = w := by
  apply BitVec.eq_of_getLsbD_eq
  intro n hn
  cases hmask : (opMask o).getLsbD n with
  | true => simpa [hmask] using congrArg (fun b => b.getLsbD n) (hu.trans hw.symm)
  | false => exact getLsbD_eq_of_operands h ⟨n, hn⟩ hmask

end SameOperands

/-- What an accepted word has passed (R76). -/
theorem exists_op_of_decode {w : Word} {i : Instr} (h : decode w = .accepted i) :
    ∃ o, w &&& opMask o = opMatch o ∧ (o = .desc → (selField w).toNat ≤ 8) ∧ i = operands o w := by
  obtain ⟨-, h'⟩ | ⟨_, -, -, h'⟩ | ⟨-, -, -, h'⟩ | ⟨o, -, hmask, hsel, h'⟩ := decode_cases w <;>
    cases h'.symm.trans h
  exact ⟨o, hmask, hsel, rfl⟩

/-- The third check of R76 is the well-formedness of the command read. -/
theorem wellFormed_operands {o : Op} {w : Word} (hsel : o = .desc → (selField w).toNat ≤ 8) :
    WellFormed (operands o w) = true := by
  cases o with
  | desc => exact (Machine.wellFormed_desc_iff _ _).2 (hsel rfl)
  | _ => rfl

theorem encode_decode {w : Word} {i : Instr} (h : decode w = .accepted i) :
    WellFormed i = true ∧ encode i = w := by
  obtain ⟨o, hmask, hsel, rfl⟩ := exists_op_of_decode h
  have hword := encode_and_opMask (operands o w)
  have hread := operands_encode (operands o w)
  rw [row_operands] at hword hread
  exact ⟨wellFormed_operands hsel, eq_of_operands hword hmask hread⟩

/-- Settles O10: the encoding of the command read passes the same mask test as the word and has the same
operands, and these leave no other bit free (`eq_of_operands`). -/
theorem acceptedWordIsItsCommandsEncoding : Obligations.AcceptedWordIsItsCommandsEncoding :=
  fun _ _ => encode_decode

theorem exists_decode_iff (w : Word) :
    (∃ i, decode w = .accepted i) ↔ ∃ i, WellFormed i = true ∧ encode i = w := by
  constructor
  · rintro ⟨i, h⟩
    exact ⟨i, encode_decode h⟩
  · rintro ⟨i, hi, rfl⟩
    exact ⟨i, decode_encode i hi⟩

/-! ### The 73 accepted words -/

/-- Every format, in the order of its code (R72). -/
def allFmts : List Fmt := [.b16, .b32, .b64, .b128]

/-- The well-formed commands in the order of R84's lists. -/
def commands : List Instr :=
  allFmts.map Instr.classify ++
  ([Instr.encode, Instr.decode, Instr.round, Instr.isfloat].flatMap fun c =>
    [RoundMode.rha, RoundMode.rne].flatMap fun r => allFmts.map fun f => c f r) ++
  ((List.range 9).flatMap fun sel => allFmts.map fun f => Instr.desc f (BitVec.ofNat 4 sel)) ++
  [Instr.clrerr]

theorem mem_allFmts (f : Fmt) : f ∈ allFmts := by cases f <;> decide

theorem mem_commands_desc_iff (f : Fmt) (sel : BitVec 4) : .desc f sel ∈ commands ↔ sel.toNat ≤ 8 := by
  revert sel
  cases f <;> decide

theorem mem_commands_iff (i : Instr) : i ∈ commands ↔ WellFormed i = true := by
  cases i with
  | classify f => simp [commands, mem_allFmts, WellFormed]
  | encode f r => cases r <;> simp [commands, mem_allFmts, WellFormed]
  | decode f r => cases r <;> simp [commands, mem_allFmts, WellFormed]
  | round f r => cases r <;> simp [commands, mem_allFmts, WellFormed]
  | isfloat f r => cases r <;> simp [commands, mem_allFmts, WellFormed]
  | desc f sel => rw [mem_commands_desc_iff, Machine.wellFormed_desc_iff]
  | clrerr => simp [commands, WellFormed]

/-- Different well-formed commands have different words, since each is read back from its own (O9). -/
theorem encode_injOn_wellFormed {i j : Instr} (hi : WellFormed i = true) (hj : WellFormed j = true)
    (h : encode i = encode j) : i = j :=
  Decoded.accepted.inj ((decode_encode i hi).symm.trans (h ▸ decode_encode j hj))

theorem nodup_commands : commands.Nodup := by decide

theorem nodup_map_encode_commands : (commands.map encode).Nodup :=
  nodup_commands.map_on fun i hi j hj =>
    encode_injOn_wellFormed ((mem_commands_iff i).1 hi) ((mem_commands_iff j).1 hj)

theorem exists_decode_iff_mem (w : Word) :
    (∃ i, decode w = .accepted i) ↔ w ∈ commands.map encode := by
  simp only [exists_decode_iff, List.mem_map, mem_commands_iff]

/-- Settles O11: R84's lists joined are the words of `commands`, which are all the well-formed commands, so
the rest is `decode` and `encode` being inverse to each other. -/
theorem exactlySeventyThreeWordsAreAccepted : Obligations.ExactlySeventyThreeWordsAreAccepted := by
  unfold Obligations.ExactlySeventyThreeWordsAreAccepted
  intro fmts classify encodeRha encodeRne decodeRha decodeRne roundRha roundRne isfloatRha isfloatRne desc all
  have hall : all = commands.map encode := by decide
  refine ⟨by decide, by decide, by decide, by decide, by decide, by decide, by decide, by decide, by decide,
    by decide, by decide, by decide, ?_, ?_⟩
  · rw [hall]
    exact nodup_map_encode_commands
  · rw [hall]
    exact exists_decode_iff_mem

/-! ### The checks of R76 -/

theorem rmOf_rmField (w : Word) : rmOf (rmField w) = if w.getLsbD 6 then .rne else .rha := by
  have hbit : rmField w = BitVec.ofBool (w.getLsbD 6) := by
    apply BitVec.eq_of_getLsbD_eq
    intro n hn
    obtain rfl : n = 0 := by omega
    simp [rmField]
  rw [hbit]
  cases w.getLsbD 6 <;> rfl

theorem opOf_eq_none {b : BitVec 4} (h : b.toNat = 0 ∨ 8 ≤ b.toNat) : opOf b = none := by
  revert b; decide

theorem opOf_of_toNat {b : BitVec 4} {k : Nat} (h : b.toNat = k) : opOf b = opOf (BitVec.ofNat 4 k) := by
  rw [← h, BitVec.ofNat_toNat, BitVec.setWidth_eq]

/-- Check (3) of R76 is there for `DESC` alone. -/
theorem decode_of_opOf_of_ne_desc {w : Word} {o : Op} (h : opOf (opField w) = some o) (ho : o ≠ .desc) :
    decode w = if w &&& opMask o ≠ opMatch o then .refused .reservedField
      else .accepted (operands o w) := by
  rw [decode_of_opOf h, if_neg (c := o = .desc ∧ _) fun hd => ho hd.1]

theorem decode_of_opOf_desc {w : Word} (h : opOf (opField w) = some .desc) :
    decode w = if w &&& opMask .desc ≠ opMatch .desc then .refused .reservedField
      else if 8 < (selField w).toNat then .refused .reservedField
      else .accepted (operands .desc w) := by
  simp only [decode_of_opOf h, true_and]

/-- Settles O12: `decode` at each value of `OP`, and the two arms of a write to `CMD`. -/
theorem decoderChecksInOrder : Obligations.DecoderChecksInOrder := by
  intro w op fmt rm sel
  have hrm : rmOf (rmField w) = rm := rmOf_rmField w
  have checks (k : Nat) (o : Op) (hk : opOf (BitVec.ofNat 4 k) = some o) (ho : o ≠ .desc) (hop : op = k) :
    decode w = if w &&& opMask o ≠ opMatch o then .refused .reservedField
      else .accepted (operands o w) := decode_of_opOf_of_ne_desc ((opOf_of_toNat hop).trans hk) ho
  refine ⟨fun hop => decode_of_opOf_eq_none (opOf_eq_none hop), fun hop => ?classify, fun hop => ?encode,
    fun hop => ?decode, fun hop => ?round, fun hop => ?isfloat, fun hop => ?desc, fun hop => ?clrerr,
    fun i s h => Machine.regWrite_accepted w s h, fun c s h => Machine.regWrite_refused w s h⟩
  case classify => exact checks 1 .classify rfl (by decide) hop
  case encode => rw [← hrm]; exact checks 2 .encode rfl (by decide) hop
  case decode => rw [← hrm]; exact checks 3 .decode rfl (by decide) hop
  case round => rw [← hrm]; exact checks 4 .round rfl (by decide) hop
  case isfloat => rw [← hrm]; exact checks 5 .isfloat rfl (by decide) hop
  case desc => exact decode_of_opOf_desc (opOf_of_toNat hop)
  case clrerr => exact checks 7 .clrerr rfl (by decide) hop

/-- Settles O13: `decode` on each printed word. -/
theorem printedWordsDecodeAsPrinted : Obligations.PrintedWordsDecodeAsPrinted := by
  unfold Obligations.PrintedWordsDecodeAsPrinted
  decide

/-- Settles O14: the step delivers the head of the queue, and a delivered write of an accepted word to `CMD`
runs its command. -/
theorem stepRunsTheDecodedCommand : Obligations.StepRunsTheDecodedCommand := by
  intro s w i ts hdec
  refine ⟨fun hpending => ?_, ?_⟩
  · rw [Machine.step_of_pending hpending]
    exact Machine.regWrite_accepted w _ hdec
  · rw [Machine.step_of_pending (Machine.withFetchWord_pending s 64 w.toNat), tableWord_toNat]
    exact Machine.regWrite_accepted w s hdec

end Sys2Proof

namespace Sys2Proof.Machine

/-! ### The integer datapath computes the rational rules -/

open Rational (pow2 magValue pow2_pos pow2_ne_zero pow2_sub pow2_natCast magValue_div_pow2 magBelow_iff
  magLog2_eq_log magFraction_value)

/-- The arbiter's division with remainder is R123 on the quotient. -/
theorem round_div {num den : Nat} (hd : 0 < den) (rm : RoundMode) :
    Rational.round ((num : Rat) / den) rm = arbiter num den rm := by
  have hden : (0 : Rat) < den := by exact_mod_cast hd
  have hfrac : (num : Rat) / den - (num / den : Nat) = (num % den : Nat) / den := by
    rw [eq_div_iff hden.ne', sub_mul, div_mul_cancel₀ _ hden.ne', sub_eq_iff_eq_add]
    exact_mod_cast (Nat.mod_add_div' num den).symm
  have hbelow : (num % den : Nat) / (den : Rat) < 1 / 2 ↔ 2 * (num % den) < den := by
    rw [div_lt_div_iff₀ hden two_pos, one_mul, mul_comm]
    exact_mod_cast Iff.rfl
  have habove : 1 / 2 < (num % den : Nat) / (den : Rat) ↔ den < 2 * (num % den) := by
    rw [div_lt_div_iff₀ two_pos hden, one_mul, mul_comm]
    exact_mod_cast Iff.rfl
  cases rm <;> simp only [Rational.round, arbiter, Nat.floor_div_eq_div, hfrac, hbelow, habove]

theorem round_magValue (M : Mag) (j : Int) (rm : RoundMode) :
    Rational.round (magValue M / pow2 j) rm = roundMag M j rm := by
  rw [magValue_div_pow2, round_div (by positivity), roundMag]

/-- A magnitude that is not below a cutoff is not zero. -/
theorem sig_ne_zero_of_not_magBelow {M : Mag} {c : Int} (h : magBelow M c ≠ true) : M.sig ≠ 0 := by
  intro h0
  refine h ((magBelow_iff M c).2 ?_)
  rw [magValue, h0, Nat.cast_zero, zero_mul]
  exact pow2_pos c

section Normalizer
variable (M : Mag) (F : Descriptor) (rm : RoundMode)

/-- The mantissa of R129 before the carry, in both branches. -/
theorem normalizer_mant : (normalizer M F rm).mant =
    if magValue M < pow2 (1 - (F.bias : Int)) then
      Rational.round (magValue M / pow2 (1 - (F.bias : Int) - (F.mbits : Int))) rm
    else Rational.round ((magValue M / pow2 (Int.log 2 (magValue M)) - 1) * 2 ^ F.mbits) rm := by
  unfold normalizer
  simp only [← magBelow_iff]
  split
  next => exact (round_magValue M _ rm).symm
  next hbelow =>
    have hM := sig_ne_zero_of_not_magBelow hbelow
    have hscale : (magValue M / pow2 (magLog2 M) - 1) * 2 ^ F.mbits =
        magValue (magFraction M) / pow2 (magLog2 M - (F.mbits : Int)) := by
      have hpow := pow2_ne_zero (magLog2 M)
      rw [magFraction_value hM, pow2_sub, pow2_natCast]
      push_cast
      field_simp
    rw [← magLog2_eq_log hM, hscale, round_magValue]
    rfl

/-- The exponent field of R129 before the carry; in the normal branch it is positive. -/
theorem normalizer_expf : ((normalizer M F rm).expf : Int) =
    if magValue M < pow2 (1 - (F.bias : Int)) then 0 else Int.log 2 (magValue M) + (F.bias : Int) := by
  unfold normalizer
  simp only [← magBelow_iff]
  split
  next => rfl
  next hbelow =>
    have hM := sig_ne_zero_of_not_magBelow hbelow
    have hlow : 1 - (F.bias : Int) ≤ magLog2 M := by
      rw [magLog2_eq_log hM, ← Int.zpow_le_iff_le_log (by norm_num) (Rational.magValue_pos hM)]
      rw [magBelow_iff, not_lt] at hbelow
      exact_mod_cast hbelow
    rw [← magLog2_eq_log hM]
    exact Int.toNat_of_nonneg (by omega)

end Normalizer

/-- The integer form of `EncodeMag` is R129's, for every magnitude and descriptor row. -/
theorem encodeMag_eq_rational (s : Bool) (M : Mag) (F : Descriptor) (rm : RoundMode) :
    encodeMag s M F rm = Rational.encodeMag s (magValue M) F rm := by
  unfold encodeMag Rational.encodeMag Rational.encodeMagNat
  simp only [← normalizer_mant, ← normalizer_expf M F rm]
  generalize normalizer M F rm = x
  have hover (n : Nat) : (2 ^ F.ebits - 1 : Int) ≤ (n : Int) ↔ 2 ^ F.ebits - 1 ≤ n := by
    have : 1 ≤ 2 ^ F.ebits := Nat.one_le_two_pow
    zify [this]
  by_cases hcarry : x.mant = 2 ^ F.mbits
  · have hexp : (x.expf : Int) + 1 = ((x.expf + 1 : Nat) : Int) := by push_cast; rfl
    simp only [compositor, carry, hcarry, if_true, hexp, hover, Int.toNat_natCast]
    split <;> cases s <;> simp [pack]
  · simp only [compositor, carry, hcarry, if_false, hover, Int.toNat_natCast]
    split <;> cases s <;> simp [pack]

/-- What a value denotes, its magnitude as a rational (R22). -/
def Value.toRat : Value → Rational.RatValue
  | .nan => .nan
  | .inf neg => .inf neg
  | .zero neg => .zero neg
  | .finite neg M => .finite neg (magValue M)

/-- The two readings of a word agree (R22). -/
theorem rational_val64 (d : Word) : Rational.val64 d = (val64 d).toRat := by
  have hsign : decide (d.toNat / 2 ^ 63 % 2 = 1) = d.getMsbD 0 := by
    rw [getMsbD_eq_signField]
    rfl
  simp only [Rational.val64, val64, hsign, slice, pow_zero, Nat.div_one]
  generalize d.toNat / 2 ^ 52 % 2 ^ 11 = E
  generalize d.toNat % 2 ^ 52 = T
  by_cases h2047 : E = 2047
  · by_cases h0 : T = 0 <;> simp [h2047, h0, Value.toRat]
  · by_cases hE0 : E = 0
    · by_cases h0 : T = 0 <;> simp [hE0, h0, Value.toRat, magValue]
    · have hmag : (1 + (T : Rat) / 2 ^ 52) * pow2 ((E : Int) - 1023) =
          magValue { sig := 2 ^ 52 + T, exp := (E : Int) - 1023 - 52 } := by
        have hp : pow2 52 = 2 ^ 52 := by exact_mod_cast pow2_natCast 52
        rw [magValue, pow2_sub _ 52, hp]
        push_cast
        ring
      simp [h2047, hE0, Value.toRat, hmag]

/-- `Encode` of the datapath is R121's. -/
theorem encodeWord_eq_rational (d : Word) (F : Descriptor) (rm : RoundMode) :
    encodeWord d F rm = Rational.encode d F rm := by
  unfold encodeWord Rational.encode
  rw [rational_val64]
  cases val64 d with
  | nan => rfl
  | inf neg => cases neg <;> rfl
  | zero neg => cases neg <;> rfl
  | finite neg M => exact encodeMag_eq_rational neg M F rm

theorem outputStage_eq_rational (s : Bool) (M : Mag) (rm : RoundMode) :
    outputStage s M rm = BitVec.ofNat 64 (Rational.encodeMagNat s (magValue M) f64 rm) := by
  rw [outputStage, encodeMag_eq_rational, Rational.encodeMag, BitVec.setWidth_ofNat_of_le (by norm_num)]

theorem magValue_fieldMag (F : Descriptor) (E T : Nat) :
    magValue (fieldMag F E T) = Rational.patternMag E T F := by
  unfold fieldMag Rational.patternMag
  split
  next => rfl
  next =>
    rw [magValue, pow2_sub _ (F.mbits : Int), pow2_natCast]
    push_cast
    field_simp

/-- The reading of a pattern as the pair that R158 answers. -/
def Reading.toPair (r : Reading) : Word × Class := (r.word, r.cls)

theorem outputStage_fieldMag (s : Bool) (F : Descriptor) (E T : Nat) (rm : RoundMode) :
    outputStage s (fieldMag F E T) rm =
      BitVec.ofNat 64 (Rational.encodeMagNat s (Rational.patternMag E T F) f64 rm) := by
  rw [outputStage_eq_rational, magValue_fieldMag]

/-- `Decode` of the datapath is R158's: the same tests in the same order, and the magnitudes of R153 and
R155 through the output stage. -/
theorem decodePattern_eq_rational (p : Pattern) (F : Descriptor) (rm : RoundMode) :
    (decodePattern p F rm).toPair = Rational.decode p F rm := by
  unfold decodePattern Rational.decode
  have hsign (b : Nat) : signField F b = b.testBit (F.ebits + F.mbits + 1 - 1) := by
    simp [signField, slice, Nat.testBit_eq_decide_div_mod_eq, beq_eq_decide]
  simp only [patWidth, hsign, mantField, expField, slice, pow_zero, Nat.div_one, ← outputStage_fieldMag]
  generalize p.toNat % 2 ^ (F.ebits + F.mbits + 1) = b
  generalize b / 2 ^ F.mbits % 2 ^ F.ebits = E
  generalize b % 2 ^ F.mbits = T
  generalize b.testBit (F.ebits + F.mbits + 1 - 1) = s
  simp only [apply_ite Reading.toPair]
  refine if_congr .rfl rfl (if_congr .rfl rfl (if_congr .rfl rfl (if_congr .rfl rfl (if_congr .rfl rfl ?_))))
  unfold decodeFields fieldMag
  by_cases hE : E = 0
  · simp only [if_pos hE, apply_ite Reading.toPair]
    exact if_congr .rfl rfl rfl
  · simp only [if_neg hE, apply_ite Reading.toPair]
    exact if_congr .rfl rfl rfl

theorem isNaNWord_iff (d : Word) : isNaNWord d = true ↔ Rational.IsNaN d := by
  unfold isNaNWord Rational.IsNaN val64
  simp only [slice, pow_zero, Nat.div_one, beq_iff_eq]
  split_ifs <;> simp_all

theorem isZeroWord_iff (d : Word) : isZeroWord d = true ↔ d = 0#64 ∨ d = 0x8000000000000000#64 := by
  simp [isZeroWord, pzero64, nzero64]

/-- The model's comparison is R174's. -/
theorem valEq_iff (a b : Word) : valEq a b = true ↔ Rational.ValEq a b := by
  unfold valEq Rational.ValEq
  simp only [← isNaNWord_iff, ← isZeroWord_iff]
  split_ifs with hnan hzero
  · rw [Bool.or_eq_true] at hnan
    simp only [false_iff]
    tauto
  · rw [Bool.or_eq_true, not_or] at hnan
    rw [Bool.and_eq_true] at hzero
    simp only [true_iff]
    tauto
  · rw [Bool.or_eq_true, not_or] at hnan
    rw [Bool.and_eq_true] at hzero
    rw [beq_iff_eq]
    tauto

/-! ### The pseudo-instructions -/

theorem roundTo_eq_rational (d : Word) (F : Descriptor) (rm : RoundMode) :
    ((roundTo d F rm).1, (roundTo d F rm).2.toPair) = Rational.roundTo d F rm := by
  rw [roundTo, decodePattern_eq_rational, encodeWord_eq_rational]
  rfl

theorem roundTo_word_eq_rational (d : Word) (F : Descriptor) (rm : RoundMode) :
    (roundTo d F rm).2.word = (Rational.roundTo d F rm).2.1 := by
  rw [← roundTo_eq_rational]
  rfl

theorem statusWord_getLsbD_q (s : State) : (statusWord s).getLsbD 3 = s.q := by
  have hbit := congrArg (fun b => b.getLsbD 0) (statusWord_extractLsb'_q s)
  simpa using hbit

theorem run_succ_of_step {M : Host.Core} {s u : M.State} (h : M.step s = .next u) (k : Nat) :
    M.run (k + 1) s = M.run k u := by
  rw [Host.Core.run, h]

/-- A run that begins with the transaction `t` goes on from what `t` is answered (R231). -/
theorem run_cons {s u : State} {t : Transaction} {ts : List Transaction} {k : Nat} (hs : s.pending = t :: ts)
    (ht : deliver t { s with pending := ts } = .next u) :
    Host.Core.run core (k + 1) s = Host.Core.run core k u :=
  run_succ_of_step (M := core) ((step_of_pending hs).trans ht) k

/-- The transaction a command stands for runs it (R81, R26). -/
theorem deliver_issue {i : Instr} (hi : WellFormed i = true) (s : State) : deliver (issue i) s = exec i s :=
  regWrite_accepted (encode i) s (decode_encode i hi)

section Pseudo
variable (s : State) (x : Word)

/-- `WR VAL, x; <command>; RD r` (R82): the read sees the state the command leaves. -/
theorem run_command_on_val {i : Instr} (hi : WellFormed i = true) (r : AsmReg) {u : State}
    (hexec : exec i { s with val := x, pending := [assemble (.rd r)], returned := [] } = .next u)
    (hpending : u.pending = [assemble (.rd r)]) (hreturned : u.returned = []) :
    ∃ t, Host.Core.run core 3
        { s with pending := [assemble (.wr .val x), issue i, assemble (.rd r)], returned := [] } = .next t ∧
      t.returned = [(regRead (regIndex r) { u with pending := [] }).1] := by
  refine ⟨_, (run_cons rfl rfl).trans ((run_cons rfl ((deliver_issue hi _).trans hexec)).trans
    ((run_cons hpending rfl).trans rfl)), ?_⟩
  simp [hreturned]

theorem run_round (f : Fmt) :
    ∃ t, Host.Core.run core 3
        { s with
          pending := [assemble (.wr .val x), issue (.round f .rha), assemble (.rd .val)]
          returned := [] } = .next t ∧
      t.returned = [(Rational.roundTo x (desc f) .rha).2.1] := by
  rw [← roundTo_word_eq_rational]
  exact run_command_on_val s x rfl .val (exec_round f .rha _) rfl rfl

theorem run_isfloat (f : Fmt) :
    ∃ t w, Host.Core.run core 3
        { s with
          pending := [assemble (.wr .val x), issue (.isfloat f .rha), assemble (.rd .status)]
          returned := [] } = .next t ∧
      t.returned = [w] ∧ (w.getLsbD 3 = true ↔ Rational.ValEq x (Rational.roundTo x (desc f) .rha).2.1) := by
  obtain ⟨t, hrun, hread⟩ := run_command_on_val s x rfl .status (exec_isfloat f .rha _) rfl rfl
  refine ⟨t, _, hrun, hread, ?_⟩
  rw [← roundTo_word_eq_rational, ← valEq_iff]
  exact iff_of_eq (congrArg (· = true) (statusWord_getLsbD_q _))

theorem run_enc128 :
    ∃ t, Host.Core.run core 4 { s with pending := expand (.enc128 x), returned := [] } = .next t ∧
      t.returned = [(Rational.encode x (desc .b128) .rha).extractLsb' 0 64,
        (Rational.encode x (desc .b128) .rha).extractLsb' 64 64] := by
  rw [← encodeWord_eq_rational]
  exact ⟨_, (run_cons rfl rfl).trans ((run_cons rfl ((deliver_issue rfl _).trans (exec_encode .b128 .rha _))).trans
    ((run_cons rfl rfl).trans ((run_cons rfl rfl).trans rfl))), rfl⟩

theorem run_dec128 (hi lo : Word) :
    ∃ t, Host.Core.run core 4 { s with pending := expand (.dec128 hi lo), returned := [] } = .next t ∧
      t.returned = [(Rational.decode (hi ++ lo) (desc .b128) .rha).1] := by
  have hpat : patJoin hi (patLo (patJoin (patHi s.pat) lo)) = hi ++ lo := by rw [patLo_patJoin]; rfl
  rw [← decodePattern_eq_rational, ← hpat]
  exact ⟨_, (run_cons rfl rfl).trans ((run_cons rfl rfl).trans
    ((run_cons rfl ((deliver_issue rfl _).trans (exec_decode .b128 .rha _))).trans
      ((run_cons rfl rfl).trans rfl))), rfl⟩

end Pseudo

/-- Settles O55: each expansion is run transaction by transaction, and the words read are the datapath's,
which computes the rational rules. -/
theorem pseudoInstructionsReturnTheirResults : Obligations.PseudoInstructionsReturnTheirResults := by
  intro s x hi lo run
  exact ⟨run_round s x .b16, run_round s x .b32, run_isfloat s x .b16, run_isfloat s x .b32, run_enc128 s x,
    run_dec128 s hi lo⟩

end Sys2Proof.Machine

/-! The descriptor table and `DESC` (spec/40_descriptor.md R90, R93, R94). -/

namespace Sys2Proof

/-! ### The words of an operation -/

open Laws.MatchesRow (row)

/-- A composed word as a positional sum (R84). -/
theorem fieldWord_eq_ofNat (op : BitVec 4) (f : Fmt) (r : RoundMode) (sel : BitVec 4) :
    fieldWord op f r sel =
      BitVec.ofNat 64 (op.toNat + 2 ^ 4 * fmtCode f + 2 ^ 6 * rmCode r + 2 ^ 8 * sel.toNat) := by
  rw [← fieldWord_toNat, BitVec.ofNat_toNat, BitVec.setWidth_eq]

theorem encode_desc_eq_ofNat (f : Fmt) (sel : BitVec 4) :
    encode (.desc f sel) = BitVec.ofNat 64 (0x006 + 0x100 * sel.toNat + 0x10 * fmtCode f) := by
  change fieldWord 6#4 f .rha sel = _
  rw [fieldWord_eq_ofNat]
  congr 1
  simp only [rmCode, BitVec.toNat_ofNat]
  omega

/-- A word with a legal `OP` is refused with `RESERVED_FIELD`, or it is the word of a command of that
operation (R76). -/
theorem decode_refused_or_encode {w : Word} {o : Op} (h : opOf (opField w) = some o) :
    decode w = .refused .reservedField ∨ ∃ i, WellFormed i = true ∧ row i = o ∧ encode i = w := by
  obtain ⟨hnone, -⟩ | ⟨_, -, -, hdec⟩ | ⟨-, -, -, hdec⟩ | ⟨o', ho', -, -, hdec⟩ := decode_cases w
  · cases hnone.symm.trans h
  · exact .inl hdec
  · exact .inl hdec
  · obtain rfl : o' = o := Option.some.inj (ho'.symm.trans h)
    obtain ⟨hwf, hword⟩ := encode_decode hdec
    exact .inr ⟨_, hwf, row_operands o' w, hword⟩

end Sys2Proof

namespace Sys2Proof.Machine

/-! ### The rows of the table -/

/-- Settles O23: the table is these four rows by definition. -/
theorem descriptorTableHoldsItsRows : Obligations.DescriptorTableHoldsItsRows :=
  ⟨⟨rfl, rfl⟩, ⟨rfl, rfl⟩, ⟨rfl, rfl⟩, ⟨rfl, rfl⟩⟩

section Rows
variable (f : Fmt)

theorem patWidth_desc_mem : patWidth (desc f) ∈ [16, 32, 64, 128] := by cases f <;> decide

theorem nodup_specialPatterns_desc : (specialPatterns (desc f)).Nodup := by cases f <;> decide

theorem specialPatterns_desc_lt : ∀ p ∈ specialPatterns (desc f), p.toNat < 2 ^ patWidth (desc f) := by
  cases f <;> simp [specialPatterns, specialReadings, desc, patWidth]

theorem two_le_desc_ebits : 2 ≤ (desc f).ebits := by cases f <;> decide

theorem two_le_desc_mbits : 2 ≤ (desc f).mbits := by cases f <;> decide

theorem desc_bias : (desc f).bias = 2 ^ ((desc f).ebits - 1) - 1 := by cases f <;> rfl

theorem desc_wide_iff : (desc f).wide = true ↔ 53 < patWidth (desc f) := by cases f <;> decide

end Rows

/-- Settles O24: each invariant of R94 by the four rows. -/
theorem descriptorTableKeepsItsInvariants : Obligations.DescriptorTableKeepsItsInvariants := fun f =>
  ⟨rfl, patWidth_desc_mem f, nodup_specialPatterns_desc f, specialPatterns_desc_lt f, two_le_desc_ebits f,
    two_le_desc_mbits f, desc_bias f, desc_wide_iff f⟩

/-! ### `DESC` -/

open Laws.MatchesRow (row)

/-- A list that holds the words of an operation's commands leaves only refused words out. -/
theorem refusesOtherWords_of_forall_encode_mem {op : BitVec 4} {o : Op} {ws : List Word}
    (hop : opOf op = some o) (hws : ∀ i, WellFormed i = true → row i = o → encode i ∈ ws) (s : State) :
    RefusesOtherWords op ws s := by
  rintro w rfl hw
  obtain hdec | ⟨i, hwf, hrow, rfl⟩ := decode_refused_or_encode hop
  · exact regWrite_refused w s hdec
  · exact absurd (hws i hwf hrow) hw

/-- The nine fields of a row under their selectors (R74). -/
def selectedFields (F : Descriptor) : List (Nat × Pattern) :=
  [(0, BitVec.ofNat 128 F.ebits), (1, BitVec.ofNat 128 F.mbits), (2, BitVec.ofNat 128 F.bias), (3, F.nan),
    (4, F.pinf), (5, F.ninf), (6, F.nzero), (7, F.pzero), (8, if F.wide then 1#128 else 0#128)]

theorem descField_eq_some_iff (F : Descriptor) (sel : BitVec 4) (v : Pattern) :
    descField F sel = some v ↔ (sel.toNat, v) ∈ selectedFields F := by
  unfold descField
  split
  case h_10 => simp_all [selectedFields]
  all_goals simp [selectedFields, *, eq_comm (a := v)]

theorem selector_le_of_mem_selectedFields {F : Descriptor} : ∀ x ∈ selectedFields F, x.1 ≤ 8 := by
  simp [selectedFields]

/-- The words of `DESC`, in the order of R84's list. -/
theorem encode_mem_of_row_desc (i : Instr) (hwf : WellFormed i = true) (hrow : row i = .desc) :
    encode i ∈ (List.range 9).flatMap fun sel =>
      (List.range 4).map fun k => BitVec.ofNat 64 (0x006 + 0x100 * sel + 0x10 * k) := by
  cases i with
  | desc f sel =>
    have hsel := (wellFormed_desc_iff f sel).1 hwf
    rw [encode_desc_eq_ofNat]
    exact List.mem_flatMap.2 ⟨sel.toNat, List.mem_range.2 (by omega),
      List.mem_map.2 ⟨fmtCode f, List.mem_range.2 (fmtCode_lt f), rfl⟩⟩
  | _ => cases hrow

/-- Settles O25: a listed selector has its field and a well-formed command, whose word the decoder accepts;
the other words of the operation are the encoding of none of its commands. -/
theorem descDeliversTheSelectedField : Obligations.DescDeliversTheSelectedField := by
  intro f s F
  refine ⟨fun sel v hv => ?_, refusesOtherWords_of_forall_encode_mem rfl encode_mem_of_row_desc s⟩
  have hexec := exec_desc_of_field ((descField_eq_some_iff F sel v).2 hv) s
  have hwf := (wellFormed_desc_iff f sel).2 (selector_le_of_mem_selectedFields _ hv)
  rw [← encode_desc_eq_ofNat]
  exact ⟨hexec, (regWrite_accepted _ s (decode_encode _ hwf)).trans hexec⟩

end Sys2Proof.Machine

/-! The classifier and `CLASSIFY` (spec/41_classify.md R110, R111, R112). -/

namespace Sys2Proof.Machine

/-! ### `CLASSIFY` -/

open Laws.MatchesRow (row)

open Rational (pow2 magLog2_eq_log)

/-- The classifier of the datapath is R111's. -/
theorem classOf_eq_rational (d : Word) (F : Descriptor) : classOf d F = Rational.classOf d F := by
  unfold classOf Rational.classOf
  rw [rational_val64]
  cases val64 d with
  | nan => rfl
  | inf neg => cases neg <;> rfl
  | zero neg => cases neg <;> rfl
  | finite neg M => exact if_congr (Rational.magBelow_iff M _) rfl rfl

theorem encode_classify_eq_ofNat (f : Fmt) :
    encode (.classify f) = BitVec.ofNat 64 (0x01 + 0x10 * fmtCode f) := by
  cases f <;> rfl

/-- The words of `CLASSIFY` (R84). -/
theorem encode_mem_of_row_classify (i : Instr) (_ : WellFormed i = true) (hrow : row i = .classify) :
    encode i ∈ [0x01#64, 0x11#64, 0x21#64, 0x31#64] := by
  cases i with
  | classify f => cases f <;> decide
  | _ => cases hrow

/-- Settles O26: the arm of `exec` with the rational class, reached by the word of the command; the other
words of the operation are the encoding of none of its commands. -/
theorem classifyReportsTheClassOfVal : Obligations.ClassifyReportsTheClassOfVal := by
  refine fun s => ⟨fun f => ?_, refusesOtherWords_of_forall_encode_mem rfl encode_mem_of_row_classify s⟩
  have hexec := exec_classify f s
  rw [classOf_eq_rational] at hexec
  rw [← encode_classify_eq_ofNat]
  exact ⟨hexec, (regWrite_accepted _ s (decode_encode _ rfl)).trans hexec⟩

/-! ### A value word by its fields -/

section Fields
variable (d : Word)

theorem expField_f64 : expField f64 d.toNat = (d.extractLsb' 52 11).toNat := by
  rw [BitVec.extractLsb'_toNat, Nat.shiftRight_eq_div_pow]
  rfl

theorem mantField_f64 : mantField f64 d.toNat = (d.extractLsb' 0 52).toNat := by
  rw [BitVec.extractLsb'_toNat, Nat.shiftRight_zero, mantField, slice, pow_zero, Nat.div_one]
  rfl

/-- A value word is spelt by its three fields (R22). -/
theorem ofNat_packNat_fields : BitVec.ofNat 64
    (packNat f64 (signField f64 d.toNat) (expField f64 d.toNat) (mantField f64 d.toNat)) = d := by
  have hd := d.isLt
  have hsign : (signField f64 d.toNat).toNat = d.toNat / 2 ^ 63 % 2 := by
    change (d.toNat / 2 ^ 63 % 2 == 1).toNat = _
    obtain h | h := Nat.mod_two_eq_zero_or_one (d.toNat / 2 ^ 63) <;> rw [h] <;> rfl
  have hsum : packNat f64 (signField f64 d.toNat) (expField f64 d.toNat) (mantField f64 d.toNat) = d.toNat := by
    rw [packNat, hsign]
    change d.toNat / 2 ^ 63 % 2 * 2 ^ 63 + d.toNat / 2 ^ 52 % 2 ^ 11 * 2 ^ 52 + d.toNat / 2 ^ 0 % 2 ^ 52 = _
    omega
  rw [hsum, BitVec.ofNat_toNat, BitVec.setWidth_eq]

/-- A value word whose fields are those of a finite non-zero value (R22). -/
def FiniteWord : Prop := FiniteFields f64 (expField f64 d.toNat) (mantField f64 d.toNat)

/-- The fields are finite and non-zero unless the exponent field is all ones or both are zero. -/
theorem finiteWord_iff : FiniteWord d ↔
    expField f64 d.toNat ≠ 2047 ∧ (expField f64 d.toNat ≠ 0 ∨ mantField f64 d.toNat ≠ 0) := by
  have hexp : expField f64 d.toNat < 2048 := Nat.mod_lt _ (by norm_num)
  have hmant : mantField f64 d.toNat < 2 ^ 52 := Nat.mod_lt _ (by norm_num)
  constructor
  · exact fun hf => ⟨hf.expf_lt.ne, or_iff_not_imp_left.2 fun h => hf.ne_zero (not_not.1 h)⟩
  · exact fun ⟨hne, hnz⟩ => ⟨Nat.lt_of_le_of_ne (Nat.le_of_lt_succ hexp) hne, hmant, hnz.resolve_left ∘ not_not.2⟩

/-- The word with the given fields. -/
theorem eq_ofNat_packNat {d : Word} {s : Bool} {E T : Nat} (hs : signField f64 d.toNat = s)
    (hE : expField f64 d.toNat = E) (hT : mantField f64 d.toNat = T) :
    d = BitVec.ofNat 64 (packNat f64 s E T) := by
  rw [← hs, ← hE, ← hT, ofNat_packNat_fields]

/-- A word with finite non-zero fields denotes their magnitude (R22). -/
theorem val64_of_finiteWord {d : Word} (hf : FiniteWord d) : val64 d =
      .finite (signField f64 d.toNat) (fieldMag f64 (expField f64 d.toNat) (mantField f64 d.toNat)) := by
  have hval := val64_packNat (s := signField f64 d.toNat) hf
  rwa [ofNat_packNat_fields] at hval

/-- The infinities and the zeros of R23, each with its class. -/
def classConstants : List (Class × Word) :=
  [(.pinf, pinf64), (.ninf, ninf64), (.pzero, pzero64), (.nzero, nzero64)]

/-- A word has the fields of a NaN, is one of the four other constants of R23, or has finite non-zero fields. -/
theorem word_cases : (expField f64 d.toNat = 2047 ∧ mantField f64 d.toNat ≠ 0) ∨
    (∃ x ∈ classConstants, d = x.2) ∨ FiniteWord d := by
  rw [finiteWord_iff]
  by_cases hE : expField f64 d.toNat = 2047
  · by_cases hT : mantField f64 d.toNat = 0
    · right; left
      cases hs : signField f64 d.toNat
      · exact ⟨(.pinf, pinf64), by decide, eq_ofNat_packNat hs hE hT⟩
      · exact ⟨(.ninf, ninf64), by decide, eq_ofNat_packNat hs hE hT⟩
    · exact .inl ⟨hE, hT⟩
  · by_cases hzero : expField f64 d.toNat = 0 ∧ mantField f64 d.toNat = 0
    · right; left
      obtain ⟨hE0, hT0⟩ := hzero
      cases hs : signField f64 d.toNat
      · exact ⟨(.pzero, pzero64), by decide, eq_ofNat_packNat hs hE0 hT0⟩
      · exact ⟨(.nzero, nzero64), by decide, eq_ofNat_packNat hs hE0 hT0⟩
    · exact .inr (.inr ⟨hE, not_and_or.1 hzero⟩)

end Fields

/-! ### The exponent of a magnitude -/

/-- A magnitude is below a power of two exactly when its exponent is (R9). -/
theorem magBelow_iff_magLog2_lt {M : Mag} (hM : M.sig ≠ 0) (c : Int) :
    magBelow M c = true ↔ magLog2 M < c := by
  rw [Rational.magBelow_iff, magLog2_eq_log hM]
  exact Int.lt_zpow_iff_log_lt (by norm_num) (Rational.magValue_pos hM)

/-- R112's form of the exponent that R132 reads from the bits of a word. -/
theorem shiftExp_eq_ite (d : Word) : shiftExp d = if 1 ≤ expField f64 d.toNat then
    (expField f64 d.toNat : Int) - 1023 else (Nat.log2 (mantField f64 d.toNat) : Int) - 1074 := by
  change (if expField f64 d.toNat = 0 then _ else _) = _
  simp only [Nat.one_le_iff_ne_zero, ne_eq, ite_not]
  rfl

/-- The exponent read from the bits of a finite non-zero word is `floor(log2(M))` (R125). -/
theorem magLog2_eq_shiftExp {d : Word} (hf : FiniteWord d) :
    magLog2 (fieldMag f64 (expField f64 d.toNat) (mantField f64 d.toNat)) = shiftExp d := by
  rw [shiftExp_eq_ite]
  split
  next hE =>
    have hE0 : expField f64 d.toNat ≠ 0 := by omega
    refine (magLog2_magFraction_of_normal (e := (expField f64 d.toNat : Int) - 1023) hf.mant_lt ?_).2.1
    rw [fieldMag, if_neg hE0]
    rfl
  next hE =>
    rw [fieldMag, if_pos (by omega)]
    rfl

/-! ### The classes -/

section Classes
variable (d : Word) (F : Descriptor)

/-- `NAN` by the bits of the word (R112). -/
theorem classOf_eq_nan_iff_fields : classOf d F = .nan ↔
    expField f64 d.toNat = 2047 ∧ mantField f64 d.toNat ≠ 0 := by
  rw [classOf_eq_nan_iff, isNaNWord_iff, Rational.IsNaN, mantField, slice, pow_zero, Nat.div_one]
  rfl

theorem classOf_of_mem_classConstants : ∀ x ∈ classConstants, classOf x.2 F = x.1 := by
  simp [classConstants, classOf, val64_constants]

/-- A finite non-zero word is classified by its exponent alone (R112). -/
theorem classOf_of_finiteWord {d : Word} (hf : FiniteWord d) :
    classOf d F = if shiftExp d < 1 - (F.bias : Int) then .subnormal else .normal := by
  rw [← magLog2_eq_shiftExp hf, classOf, val64_of_finiteWord hf]
  exact if_congr (magBelow_iff_magLog2_lt (fieldMag_sig_ne_zero hf) _) rfl rfl

/-- No class of a constant is one of a finite non-zero word. -/
theorem classConstants_ne_finite : ∀ x ∈ classConstants, ¬ (x.1 = .normal ∨ x.1 = .subnormal) := by decide

/-- The classes of the finite non-zero words. -/
theorem classOf_finite_iff : (classOf d F = .normal ∨ classOf d F = .subnormal) ↔
    FiniteWord d := by
  constructor
  · intro h
    obtain hnan | ⟨x, hx, rfl⟩ | hf := word_cases d
    · rw [(classOf_eq_nan_iff_fields d F).2 hnan] at h
      simp at h
    · rw [classOf_of_mem_classConstants F x hx] at h
      exact absurd h (classConstants_ne_finite x hx)
    · exact hf
  · intro hf
    rw [classOf_of_finiteWord F hf]
    split <;> simp

/-- The class of an infinity or a zero names the one word (R112). -/
theorem classOf_eq_iff_of_mem_classConstants : ∀ x ∈ classConstants, (classOf d F = x.1 ↔ d = x.2) := by
  have hne : ∀ x ∈ classConstants, x.1 ≠ .nan := by decide
  have hinj : ∀ x ∈ classConstants, ∀ y ∈ classConstants, x.1 = y.1 → x = y := by decide
  refine fun x hx => ⟨fun h => ?_, fun h => h ▸ classOf_of_mem_classConstants F x hx⟩
  obtain hnan | ⟨y, hy, rfl⟩ | hf := word_cases d
  · exact absurd (h.symm.trans ((classOf_eq_nan_iff_fields d F).2 hnan)) (hne x hx)
  · rw [hinj y hy x hx ((classOf_of_mem_classConstants F y hy).symm.trans h)]
  · have hfin := (classOf_finite_iff d F).2 hf
    rw [h] at hfin
    exact absurd hfin (classConstants_ne_finite x hx)

theorem classOf_eq_subnormal_iff : classOf d F = .subnormal ↔
    FiniteWord d ∧ shiftExp d < 1 - (F.bias : Int) := by
  constructor
  · intro h
    have hf := (classOf_finite_iff d F).1 (.inr h)
    rw [classOf_of_finiteWord F hf] at h
    exact ⟨hf, by_contra fun hn => by simp [hn] at h⟩
  · rintro ⟨hf, hlt⟩
    rw [classOf_of_finiteWord F hf, if_pos hlt]

theorem classOf_eq_normal_iff : classOf d F = .normal ↔
    FiniteWord d ∧ classOf d F ≠ .subnormal := by
  rw [← classOf_finite_iff d F]
  refine ⟨fun h => ⟨.inl h, ?_⟩, fun ⟨hclass, hne⟩ => hclass.resolve_right hne⟩
  rw [h]
  decide

end Classes

/-- The rational magnitude of a finite non-zero word is positive (R22). -/
theorem rational_val64_finite_pos {d : Word} {neg : Bool} {M : Rat} (h : Rational.val64 d = .finite neg M) :
    0 < M := by
  rw [rational_val64] at h
  cases hd : val64 d with
  | finite s M' =>
    rw [hd] at h
    obtain ⟨E, T, hf, rfl⟩ := exists_fields_of_val64 hd
    cases h
    exact Rational.magValue_pos (fieldMag_sig_ne_zero hf)
  | _ => rw [hd] at h; cases h

/-- The consequence of R112 for a format whose cutoff is `2^c`. -/
theorem classOf_eq_subnormal_iff_lt {d : Word} {neg : Bool} {M : Rat} (h : Rational.val64 d = .finite neg M)
    (F : Descriptor) {c : Int} (hc : 1 - (F.bias : Int) = c) :
    classOf d F = .subnormal ↔ 0 < M ∧ M < pow2 c := by
  rw [classOf_eq_rational, Rational.classOf, h, ← hc, and_iff_right (rational_val64_finite_pos h)]
  simp

theorem classOf_b64_eq_subnormal_iff (d : Word) : classOf d (desc .b64) = .subnormal ↔
    expField f64 d.toNat = 0 ∧ mantField f64 d.toNat ≠ 0 := by
  have hbias : (desc .b64).bias = 1023 := rfl
  have hlog (hT : mantField f64 d.toNat ≠ 0) : Nat.log2 (mantField f64 d.toNat) < 52 :=
    (Nat.log2_lt hT).2 (Nat.mod_lt _ (by norm_num))
  rw [classOf_eq_subnormal_iff, finiteWord_iff, shiftExp_eq_ite, hbias]
  split <;> omega

/-- No value word is subnormal relative to binary128: the smallest exponent is -1074 (R112). -/
theorem classOf_b128_ne_subnormal (d : Word) : classOf d (desc .b128) ≠ .subnormal := by
  have hbias : (desc .b128).bias = 16383 := rfl
  rw [ne_eq, classOf_eq_subnormal_iff, shiftExp_eq_ite, hbias]
  split <;> omega

/-- Settles O27: the fields fix the value (`word_cases`), and a finite non-zero word is classified by its
exponent. -/
theorem classifierReadsTheBitsOfTheWord : Obligations.ClassifierReadsTheBitsOfTheWord := by
  unfold Obligations.ClassifierReadsTheBitsOfTheWord
  intro d
  simp only [← expField_f64, ← mantField_f64, ← finiteWord_iff, ← shiftExp_eq_ite]
  refine ⟨fun f => ?_, fun neg M h => ⟨classOf_eq_subnormal_iff_lt h _ rfl, classOf_eq_subnormal_iff_lt h _ rfl,
    classOf_eq_subnormal_iff_lt h _ rfl⟩, classOf_b64_eq_subnormal_iff d, classOf_b128_ne_subnormal d⟩
  have hconst := classOf_eq_iff_of_mem_classConstants d (desc f)
  simp only [classConstants, List.forall_mem_cons] at hconst
  obtain ⟨hpinf, hninf, hpzero, hnzero, -⟩ := hconst
  exact ⟨classOf_eq_nan_iff_fields d _, hpinf, hninf, hpzero, hnzero, classOf_eq_subnormal_iff d _,
    classOf_eq_normal_iff d _, classOf_ne_none d _⟩

end Sys2Proof.Machine

/-! The encoder and `ENCODE` (spec/42_encode.md R120 to R132). -/

namespace Sys2Proof.Machine

open Rational (pow2 magValue pow2_pos pow2_ne_zero pow2_add pow2_sub pow2_natCast magFraction_value)

open Laws.MatchesRow (row)

/-! ### The arbiter -/

section Round
variable {q : Rat} (rm : RoundMode)

/-- R123 answers the floor or the next integer. -/
theorem round_cases (q : Rat) : Rational.round q rm = ⌊q⌋₊ ∨ Rational.round q rm = ⌊q⌋₊ + 1 := by
  cases rm <;> simp only [Rational.round] <;> split_ifs <;> simp

/-- A larger fraction over the same floor is not rounded down where a smaller one is rounded up. -/
theorem round_le_of_floor_eq {q₁ q₂ : Rat} (hle : q₁ ≤ q₂) (hfloor : ⌊q₁⌋₊ = ⌊q₂⌋₊) :
    Rational.round q₁ rm ≤ Rational.round q₂ rm := by
  have hfrac : q₁ - (⌊q₂⌋₊ : Rat) ≤ q₂ - (⌊q₂⌋₊ : Rat) := sub_le_sub_right hle _
  cases rm <;> simp only [Rational.round, hfloor] <;> grind

theorem round_mono {q₁ q₂ : Rat} (hle : q₁ ≤ q₂) : Rational.round q₁ rm ≤ Rational.round q₂ rm := by
  obtain hlt | heq := (Nat.floor_mono hle).lt_or_eq
  · have h₁ := round_cases rm q₁
    have h₂ := round_cases rm q₂
    omega
  · exact round_le_of_floor_eq rm hle heq

theorem round_natCast (n : Nat) : Rational.round (n : Rat) rm = n := by
  cases rm <;> simp [Rational.round]

theorem round_le_natCast {n : Nat} (h : q ≤ n) : Rational.round q rm ≤ n :=
  (round_mono rm h).trans_eq (round_natCast rm n)

/-- R123's second form of `RHA`: half is added and the floor taken. -/
theorem round_rha_eq_floor (hq : 0 ≤ q) : Rational.round q .rha = ⌊q + 1 / 2⌋₊ := by
  have hlow := Nat.floor_le hq
  have hhigh := Nat.lt_floor_add_one q
  symm
  rw [Nat.floor_eq_iff (by linarith)]
  simp only [Rational.round]
  split <;> push_cast <;> constructor <;> linarith

end Round

section Arbiter
variable {num den : Nat}

/-- The fraction of a quotient is a half exactly when the remainder is half the divisor. -/
theorem frac_eq_half_iff (hd : 0 < den) :
    (num : Rat) / den - ⌊(num : Rat) / den⌋₊ = 1 / 2 ↔ 2 * (num % den) = den := by
  have hden : (den : Rat) ≠ 0 := by exact_mod_cast hd.ne'
  rw [Nat.floor_div_eq_div, sub_eq_iff_eq_add, div_eq_iff hden, add_mul, ← sub_eq_iff_eq_add]
  have hmod : (num : Rat) - (num / den : Nat) * den = (num % den : Nat) := by
    rw [sub_eq_iff_eq_add]
    exact_mod_cast (Nat.mod_add_div' num den).symm
  rw [hmod, one_div, eq_inv_mul_iff_mul_eq₀ two_ne_zero]
  exact_mod_cast Iff.rfl

/-- The modes differ exactly on a tie with an even floor (R123). -/
theorem arbiter_rha_ne_rne_iff :
    arbiter num den .rha ≠ arbiter num den .rne ↔ 2 * (num % den) = den ∧ num / den % 2 = 0 := by
  simp only [arbiter]
  split_ifs <;> omega

end Arbiter

/-- Settles O30: the arbiter is R123 on the quotient (`round_div`), and the modes differ on a tie alone. -/
theorem arbiterRoundsExactly : Obligations.ArbiterRoundsExactly := by
  intro num den hd q n f
  have hround (rm : RoundMode) : arbiter num den rm = Rational.round q rm := (round_div hd rm).symm
  have hrne : arbiter num den .rne =
    if f < 1 / 2 then n else if 1 / 2 < f then n + 1 else if n % 2 = 0 then n else n + 1 := hround .rne
  refine ⟨hround .rha, (hround .rha).trans (round_rha_eq_floor (by positivity)), fun hlt => ?below,
    fun hgt => ?above, fun htie => ?tie, ?differ⟩
  case below => rw [hrne, if_pos hlt]
  case above => rw [hrne, if_neg hgt.le.not_gt, if_pos hgt]
  case tie =>
    rw [hrne, if_neg htie.not_lt, if_neg htie.not_gt]
    split <;> omega
  case differ =>
    have hn : n = num / den := Nat.floor_div_eq_div num den
    rw [arbiter_rha_ne_rne_iff, hn]
    exact and_congr_left' (frac_eq_half_iff hd).symm

/-- The guard bit is the weight of a half and the sticky bit says whether anything lies below it, so the two
tests of R130 are the arbiter's. -/
theorem shiftRound_eq_arbiter (sig j : Nat) (rm : RoundMode) :
    shiftRound sig ((j + 1 : Nat) : Int) rm = arbiter sig (2 ^ (j + 1)) rm := by
  have hpos : ¬ ((j + 1 : Nat) : Int) ≤ 0 := by omega
  have hmod : sig % 2 ^ (j + 1) = sig % 2 ^ j + 2 ^ j * (sig / 2 ^ j % 2) := Nat.mod_pow_succ
  have hlow : sig % 2 ^ j < 2 ^ j := Nat.mod_lt _ (by positivity)
  have hguard := Nat.mod_two_eq_zero_or_one (sig / 2 ^ j)
  have hbelow : 2 * (sig % 2 ^ (j + 1)) < 2 ^ (j + 1) ↔ sig / 2 ^ j % 2 = 0 := by
    rw [hmod, pow_succ]
    obtain h | h := hguard <;> rw [h] <;> omega
  have habove : 2 ^ (j + 1) < 2 * (sig % 2 ^ (j + 1)) ↔ sig / 2 ^ j % 2 = 1 ∧ sig % 2 ^ j ≠ 0 := by
    rw [hmod, pow_succ]
    obtain h | h := hguard <;> rw [h] <;> omega
  simp only [shiftRound, if_neg hpos, Int.toNat_natCast, Nat.add_sub_cancel, bitAt, slice, pow_one, pow_zero,
    Nat.div_one, bne_iff_ne, arbiter, hbelow, habove]
  generalize sig / 2 ^ j % 2 = guardBit at hguard
  generalize sig % 2 ^ j = low
  cases rm <;> dsimp only <;> split_ifs <;> omega

theorem shiftRound_of_nonpos {k : Int} (hk : k ≤ 0) (sig : Nat) (rm : RoundMode) :
    shiftRound sig k rm = sig * 2 ^ (-k).toNat := by
  rw [shiftRound, if_pos hk]

/-- R130 for every shift: with nothing to discard the quotient is an integer. -/
theorem shiftRound_eq_round (sig : Nat) (k : Int) (rm : RoundMode) :
    shiftRound sig k rm = Rational.round ((sig : Rat) / pow2 k) rm := by
  obtain hk | hk := le_or_gt k 0
  · have hquot : (sig : Rat) / pow2 k = (sig * 2 ^ (-k).toNat : Nat) := by
      rw [div_eq_iff (pow2_ne_zero k), Nat.cast_mul, mul_assoc, ← pow2_natCast, ← pow2_add,
        show ((-k).toNat : Int) + k = 0 by omega]
      simp [pow2]
    rw [shiftRound_of_nonpos hk, hquot, round_natCast]
  · obtain ⟨j, rfl⟩ : ∃ j : Nat, k = ((j + 1 : Nat) : Int) := ⟨k.toNat - 1, by omega⟩
    rw [shiftRound_eq_arbiter, pow2_natCast, round_div (by positivity)]

/-- Settles O31: a shift that discards nothing is exact, and one that discards bits is the arbiter's. -/
theorem guardAndStickyFormRoundsExactly : Obligations.GuardAndStickyFormRoundsExactly :=
  shiftRound_eq_round

/-- The modes differ on a shift only when the discarded bits are a one followed by zeros (R131 (g)). -/
theorem discarded_of_shiftRound_ne {sig : Nat} {k : Int} (h : shiftRound sig k .rha ≠ shiftRound sig k .rne) :
    ∃ j : Nat, k = ((j + 1 : Nat) : Int) ∧ sig % 2 ^ (j + 1) = 2 ^ j := by
  obtain hk | hk := le_or_gt k 0
  · exact absurd (by rw [shiftRound_of_nonpos hk, shiftRound_of_nonpos hk]) h
  · obtain ⟨j, rfl⟩ : ∃ j : Nat, k = ((j + 1 : Nat) : Int) := ⟨k.toNat - 1, by omega⟩
    rw [shiftRound_eq_arbiter, shiftRound_eq_arbiter, arbiter_rha_ne_rne_iff] at h
    exact ⟨j, rfl, by have := pow_succ 2 j; omega⟩

/-- A magnitude `n * 2^(j - k)` is rounded at `2^j` as `n` is when `k` bits are discarded (R132). -/
theorem roundMag_eq_shiftRound {M : Mag} {j k : Int} {n : Nat} (h : magValue M = n * pow2 (j - k))
    (rm : RoundMode) : roundMag M j rm = shiftRound n k rm := by
  have hquot : magValue M / pow2 j = n / pow2 k := by
    have hj := pow2_ne_zero j
    rw [h, pow2_sub]
    field_simp
  rw [← round_magValue, hquot, shiftRound_eq_round]

/-! ### A finite value word by its significand and exponent -/

/-- The exact magnitude of a finite non-zero value word (R22). -/
def wordMag (d : Word) : Mag := fieldMag f64 (expField f64 d.toNat) (mantField f64 d.toNat)

theorem finiteWord_of_val64 {d : Word} {s : Bool} {M : Mag} (h : val64 d = .finite s M) : FiniteWord d := by
  rw [← classOf_finite_iff d f64, classOf, h]
  dsimp only
  split <;> simp

section ShiftSig
variable {d : Word}

theorem shiftSig_of_expField_eq_zero (h : expField f64 d.toNat = 0) :
    shiftSig d = mantField f64 d.toNat * 2 ^ (52 - Nat.log2 (mantField f64 d.toNat)) := if_pos h

theorem shiftSig_of_expField_ne_zero (h : expField f64 d.toNat ≠ 0) :
    shiftSig d = 2 ^ 52 + mantField f64 d.toNat := if_neg h

end ShiftSig

section FiniteWord
variable {d : Word} (hf : FiniteWord d)
include hf

theorem val64_eq_wordMag : val64 d = .finite (d.getMsbD 0) (wordMag d) := by
  rw [getMsbD_eq_signField]
  exact val64_of_finiteWord hf

theorem wordMag_sig_ne_zero : (wordMag d).sig ≠ 0 := fieldMag_sig_ne_zero hf

theorem magLog2_wordMag : magLog2 (wordMag d) = shiftExp d := magLog2_eq_shiftExp hf

theorem encodeWord_eq_encodeMag (F : Descriptor) (rm : RoundMode) :
    encodeWord d F rm = encodeMag (d.getMsbD 0) (wordMag d) F rm :=
  encodeWord_of_finite (val64_eq_wordMag hf) F rm

/-- The significand of R132 is the mantissa field with its hidden one, or the field shifted until its
leading one stands at bit 52. -/
theorem shiftSig_bounds : 2 ^ 52 ≤ shiftSig d ∧ shiftSig d < 2 ^ 53 := by
  have hmant : mantField f64 d.toNat < 2 ^ 52 := hf.mant_lt
  by_cases hE : expField f64 d.toNat = 0
  · have hT := hf.ne_zero hE
    rw [shiftSig_of_expField_eq_zero hE]
    generalize mantField f64 d.toNat = T at hmant hT
    obtain ⟨j, hj⟩ := Nat.exists_eq_add_of_le ((Nat.log2_lt hT).2 hmant).le
    have hlead := Nat.mul_le_mul_right (2 ^ j) (Nat.log2_self_le hT)
    have htop := Nat.mul_lt_mul_of_pos_right (Nat.lt_log2_self (n := T)) (Nat.two_pow_pos j)
    rw [← pow_add] at hlead htop
    rw [show 52 - Nat.log2 T = j by omega]
    exact ⟨by rwa [hj], by rwa [show 53 = Nat.log2 T + 1 + j by omega]⟩
  · rw [shiftSig_of_expField_ne_zero hE]
    omega

/-- The magnitude by R132's significand and exponent. -/
theorem magValue_wordMag : magValue (wordMag d) = shiftSig d * pow2 (shiftExp d - 52) := by
  rw [shiftExp_eq_ite]
  by_cases hE : expField f64 d.toNat = 0
  · have hlog : Nat.log2 (mantField f64 d.toNat) < 52 := (Nat.log2_lt (hf.ne_zero hE)).2 hf.mant_lt
    rw [shiftSig_of_expField_eq_zero hE, wordMag, fieldMag, if_pos hE, if_neg (by omega), magValue, Nat.cast_mul,
      ← pow2_natCast, mul_assoc, ← pow2_add]
    congr 2
    have hbias : f64.bias = 1023 := rfl
    have hmbits : f64.mbits = 52 := rfl
    simp only [hbias, hmbits]
    omega
  · rw [shiftSig_of_expField_ne_zero hE, wordMag, fieldMag, if_neg hE, if_pos (by omega)]
    rfl

theorem magValue_magFraction_wordMag :
    magValue (magFraction (wordMag d)) = (shiftSig d - 2 ^ 52 : Nat) * pow2 (shiftExp d - 52) := by
  have hlead : pow2 (shiftExp d) = (2 ^ 52 : Nat) * pow2 (shiftExp d - 52) := by
    rw [← pow2_natCast, ← pow2_add]
    congr 1
    push_cast
    ring
  rw [magFraction_value (wordMag_sig_ne_zero hf), magLog2_wordMag hf, magValue_wordMag hf, hlead,
    Nat.cast_sub (shiftSig_bounds hf).1, sub_mul]

/-- R132's shift amounts are those of the two branches of the normalizer. -/
theorem normalizer_wordMag (F : Descriptor) (rm : RoundMode) : normalizer (wordMag d) F rm =
    if shiftExp d < 1 - (F.bias : Int) then
      { expf := 0
        mant := shiftRound (shiftSig d) (52 - (F.mbits : Int) + (1 - (F.bias : Int) - shiftExp d)) rm }
    else
      { expf := (shiftExp d + (F.bias : Int)).toNat
        mant := shiftRound (shiftSig d - 2 ^ 52) (52 - (F.mbits : Int)) rm } := by
  have hbranch := magBelow_iff_magLog2_lt (wordMag_sig_ne_zero hf) (1 - (F.bias : Int))
  rw [magLog2_wordMag hf] at hbranch
  refine if_congr hbranch (congrArg (Fields.mk 0) ?subnormal) ?normal
  case subnormal =>
    apply roundMag_eq_shiftRound
    rw [magValue_wordMag hf]
    congr 2
    ring
  case normal =>
    rw [normalFields, magLog2_wordMag hf]
    refine congrArg (Fields.mk _) (roundMag_eq_shiftRound ?_ rm)
    rw [magValue_magFraction_wordMag hf]
    congr 2
    ring

theorem shiftEncode_eq_encodeWord (F : Descriptor) (rm : RoundMode) :
    shiftEncode d F rm = encodeWord d F rm := by
  rw [encodeWord_eq_encodeMag hf, encodeMag, normalizer_wordMag hf]
  rfl

end FiniteWord

/-- With 54 or more bits to discard less than half is left of a 53-bit significand (R132). -/
theorem shiftRound_eq_zero {sig : Nat} {k : Int} (hsig : sig < 2 ^ 53) (hk : 54 ≤ k) (rm : RoundMode) :
    shiftRound sig k rm = 0 := by
  obtain ⟨j, rfl⟩ : ∃ j : Nat, k = ((j + 1 : Nat) : Int) := ⟨k.toNat - 1, by omega⟩
  have hden : 2 ^ 54 ≤ 2 ^ (j + 1) := Nat.pow_le_pow_right two_pos (by omega)
  have hquot : sig / 2 ^ (j + 1) = 0 := Nat.div_eq_of_lt (by omega)
  have hrem : 2 * (sig % 2 ^ (j + 1)) < 2 ^ (j + 1) := by
    rw [Nat.mod_eq_of_lt (by omega)]
    omega
  rw [shiftRound_eq_arbiter]
  cases rm <;> simp only [arbiter, hquot, if_pos hrem]

/-- The rational reading of a finite non-zero word is its fields' (R22). -/
theorem finiteWord_of_rational {d : Word} {neg : Bool} {M : Rat} (h : Rational.val64 d = .finite neg M) :
    FiniteWord d ∧ neg = d.getMsbD 0 ∧ M = magValue (wordMag d) := by
  rw [rational_val64] at h
  cases hd : val64 d with
  | finite s M' =>
    have hf := finiteWord_of_val64 hd
    rw [val64_eq_wordMag hf] at h
    cases h
    exact ⟨hf, rfl, rfl⟩
  | _ => rw [hd] at h; cases h

/-- Settles O32: the two shift amounts are the normalizer's (`normalizer_wordMag`). -/
theorem shiftFormEncodesAsTheRules : Obligations.ShiftFormEncodesAsTheRules := by
  intro d neg M h
  obtain ⟨hf, -, rfl⟩ := finiteWord_of_rational h
  obtain ⟨hlow, hhigh⟩ := shiftSig_bounds hf
  refine ⟨magValue_wordMag hf, hlow, hhigh, fun f rm => ?_, fun k rm hk => shiftRound_eq_zero hhigh hk rm⟩
  rw [shiftEncode_eq_encodeWord hf, encodeWord_eq_rational]

/-- Settles O29: `encodeMag_eq_rational`, branch by branch of the normalizer and of the compositor. -/
theorem encodeMagComputesTheRationalRule : Obligations.EncodeMagComputesTheRationalRule :=
  encodeMag_eq_rational

/-! ### A pattern by its fields -/

/-- A pattern is spelt by its three fields (R126). -/
theorem packNat_fields {F : Descriptor} {b : Nat} (hb : b < 2 ^ patWidth F) :
    packNat F (signField F b) (expField F b) (mantField F b) = b := by
  have hlow : b % 2 ^ (F.ebits + F.mbits) = expField F b * 2 ^ F.mbits + mantField F b := by
    rw [expField, mantField, slice, slice, pow_zero, Nat.div_one, add_comm F.ebits, pow_add, Nat.mod_mul]
    ring
  have hsign : (signField F b).toNat = b / 2 ^ (F.ebits + F.mbits) := by
    rw [patWidth, pow_succ, mul_comm, ← Nat.div_lt_iff_lt_mul (by positivity)] at hb
    rw [signField, slice, pow_one]
    generalize b / 2 ^ (F.ebits + F.mbits) = top at hb
    interval_cases top <;> rfl
  rw [packNat, hsign, add_assoc, ← hlow, Nat.div_add_mod']

/-! ### Where the mode matters -/

/-- A word whose magnitude the format holds is encoded without rounding (R131 (e)). -/
theorem encodeModeFree_of_isMagnitude {d : Word} {F : Descriptor}
    (h : FiniteWord d → IsMagnitude F (magValue (wordMag d))) : encodeModeFree d F := by
  by_cases hf : FiniteWord d
  · obtain ⟨E, T, hfields, hmag⟩ := h hf
    rw [encodeModeFree, encodeWord_eq_encodeMag hf, encodeWord_eq_encodeMag hf, encodeMag_exact hfields hmag,
      encodeMag_exact hfields hmag]
  · exact encodeModeFree_of_special (fun _ _ hval => hf (finiteWord_of_val64 hval)) F

theorem isMagnitude_b64_wordMag {d : Word} (hf : FiniteWord d) : IsMagnitude f64 (magValue (wordMag d)) :=
  ⟨_, _, hf, rfl⟩

theorem isMagnitude_b128_wordMag {d : Word} (hf : FiniteWord d) :
    IsMagnitude (desc .b128) (magValue (wordMag d)) := isMagnitude_of_fits binary64_fits_binary128 hf

/-- In the normal branch the hidden one is among the bits that are kept. -/
theorem mod_of_sub_hidden {sig j : Nat} (hsig : 2 ^ 52 ≤ sig) (hj : j ≤ 52) :
    (sig - 2 ^ 52) % 2 ^ j = sig % 2 ^ j := by
  obtain ⟨c, hc⟩ := Nat.pow_dvd_pow 2 hj
  conv_rhs => rw [← Nat.sub_add_cancel hsig, hc, Nat.add_mul_mod_self_left]
  rw [hc]

/-- The word is a tie of its branch whenever the modes encode it differently. -/
theorem isTie_of_not_encodeModeFree {d : Word} {F : Descriptor} (h : ¬ encodeModeFree d F) : IsTie d F := by
  by_cases hf : FiniteWord d
  case neg => exact absurd (encodeModeFree_of_special (fun _ _ hval => hf (finiteWord_of_val64 hval)) F) h
  rw [encodeModeFree, encodeWord_eq_encodeMag hf, encodeWord_eq_encodeMag hf, encodeMag, encodeMag,
    normalizer_wordMag hf, normalizer_wordMag hf] at h
  unfold IsTie
  split_ifs at h ⊢ with hsub
  · obtain ⟨j, hk, htie⟩ := discarded_of_shiftRound_ne (mt (fun heq => by rw [heq]) h)
    exact ⟨j + 1, by omega, by simpa using htie, hk.symm⟩
  · obtain ⟨j, hk, htie⟩ := discarded_of_shiftRound_ne (mt (fun heq => by rw [heq]) h)
    rw [mod_of_sub_hidden (shiftSig_bounds hf).1 (by omega)] at htie
    exact ⟨j + 1, by omega, by simpa using htie, by omega⟩

/-- Settles O39: binary64 and binary128 hold every value word, and elsewhere a difference is one of the
rounded shift, so a tie of its discarded bits (`discarded_of_shiftRound_ne`). -/
theorem roundingModeMattersOnlyOnTies : Obligations.RoundingModeMattersOnlyOnTies := fun _ =>
  ⟨encodeModeFree_of_isMagnitude isMagnitude_b64_wordMag, encodeModeFree_of_isMagnitude isMagnitude_b128_wordMag,
    fun _ => isTie_of_not_encodeModeFree⟩

/-! ### binary128 -/

/-- The exponents of the value words (R22). -/
theorem shiftExp_bounds {d : Word} (hf : FiniteWord d) : -1074 ≤ shiftExp d ∧ shiftExp d ≤ 1023 := by
  have hexp : expField f64 d.toNat < 2047 := hf.expf_lt
  have hlog (hE : expField f64 d.toNat = 0) : Nat.log2 (mantField f64 d.toNat) < 52 :=
    (Nat.log2_lt (hf.ne_zero hE)).2 hf.mant_lt
  rw [shiftExp_eq_ite]
  split <;> omega

/-- The fields of a finite pattern of binary128 stand side by side (R126). -/
theorem ofNat_packNat_b128 (s : Bool) {E T : Nat} (hE : E < 2 ^ 15) (hT : T < 2 ^ 112) :
    BitVec.ofNat 128 (packNat (desc .b128) s E T) =
      BitVec.ofBool s ++ BitVec.ofNat 15 E ++ BitVec.ofNat 112 T := by
  have hlt : packNat (desc .b128) s E T < 2 ^ 128 := packNat_lt s hE hT
  apply BitVec.eq_of_toNat_eq
  rw [BitVec.toNat_append, BitVec.toNat_append, ← Nat.shiftLeft_add_eq_or_of_lt (BitVec.isLt _),
    ← Nat.shiftLeft_add_eq_or_of_lt (BitVec.isLt _), Nat.shiftLeft_eq, Nat.shiftLeft_eq, BitVec.toNat_ofNat,
    BitVec.toNat_ofNat, BitVec.toNat_ofNat, BitVec.toNat_ofBool, Nat.mod_eq_of_lt hE, Nat.mod_eq_of_lt hT,
    Nat.mod_eq_of_lt hlt, packNat]
  simp only [desc]
  ring

/-- Every finite non-zero word is a normal value of binary128, its significand 60 bits short of filling the
mantissa field. -/
theorem fields_b128 {d : Word} (hf : FiniteWord d) :
    ∃ E : Nat, (E : Int) = shiftExp d + 16383 ∧
      FiniteFields (desc .b128) E ((shiftSig d - 2 ^ 52) * 2 ^ 60) ∧
      magValue (wordMag d) = magValue (fieldMag (desc .b128) E ((shiftSig d - 2 ^ 52) * 2 ^ 60)) := by
  obtain ⟨hlow, hhigh⟩ := shiftSig_bounds hf
  obtain ⟨hbottom, htop⟩ := shiftExp_bounds hf
  obtain ⟨E, hE⟩ := Int.eq_ofNat_of_zero_le (by omega : 0 ≤ shiftExp d + 16383)
  obtain ⟨T, hT⟩ := Nat.exists_eq_add_of_le hlow
  have hE0 : E ≠ 0 := by omega
  rw [magValue_wordMag hf, hT, Nat.add_sub_cancel_left]
  refine ⟨E, hE.symm, ⟨?_, ?_, fun h0 => absurd h0 hE0⟩, ?_⟩
  · change E < 2 ^ 15 - 1
    omega
  · change T * 2 ^ 60 < 2 ^ 112
    omega
  · have hexp : shiftExp d - 52 = (60 : Nat) + ((E : Int) - (16383 : Nat) - (112 : Nat)) := by omega
    have hsig : 2 ^ 112 + T * 2 ^ 60 = (2 ^ 52 + T) * 2 ^ 60 := by omega
    rw [fieldMag, if_neg hE0, magValue]
    change _ = ((2 ^ 112 + T * 2 ^ 60 : Nat) : Rat) * pow2 ((E : Int) - (16383 : Nat) - (112 : Nat))
    rw [hexp, hsig, pow2_add, pow2_natCast, Nat.cast_mul (2 ^ 52 + T), mul_assoc]

/-- Settles O36: the word is a normal value of binary128, whose fields are exact (`encodeMag_exact`). -/
theorem binary128EncodeIsExact : Obligations.Binary128EncodeIsExact := by
  intro d neg M h rm
  obtain ⟨hf, rfl, -⟩ := finiteWord_of_rational h
  obtain ⟨E, hE, hfields, hmag⟩ := fields_b128 hf
  rw [encode128IsExact, encodeWord_eq_encodeMag hf, encodeMag_exact hfields hmag, ← hE, BitVec.ofInt_natCast]
  exact ofNat_packNat_b128 _ hfields.expf_lt_pow hfields.mant_lt

/-! ### binary64 -/

theorem encodeWord_of_isNaN {d : Word} (h : Rational.IsNaN d) (F : Descriptor) (rm : RoundMode) :
    encodeWord d F rm = F.nan := by
  have hnan : val64 d = .nan := eq_of_beq ((isNaNWord_iff d).2 h)
  simp only [encodeWord, hnan]

theorem setWidth_eq_ofNat_packNat (d : Word) : d.setWidth 128 = BitVec.ofNat 128
    (packNat f64 (signField f64 d.toNat) (expField f64 d.toNat) (mantField f64 d.toNat)) := by
  rw [packNat_fields d.isLt, BitVec.ofNat_toNat]

/-- The binary64 encoding of a finite non-zero word has the word's own fields. -/
theorem encodeMag_wordMag_b64 {d : Word} (hf : FiniteWord d) (rm : RoundMode) :
    encodeMag (signField f64 d.toNat) (wordMag d) f64 rm = d.setWidth 128 := by
  rw [encodeMag_exact (M := wordMag d) hf rfl, setWidth_eq_ofNat_packNat]

theorem decodePattern_setWidth_of_finiteWord {d : Word} (hf : FiniteWord d) (rm : RoundMode) :
    (decodePattern (d.setWidth 128) f64 rm).word = d := by
  have hstage : outputStage (signField f64 d.toNat) (wordMag d) rm = d := by
    rw [outputStage, encodeMag_wordMag_b64 hf, BitVec.setWidth_setWidth_of_le _ (by norm_num), BitVec.setWidth_eq]
  rw [setWidth_eq_ofNat_packNat, decodePattern_packNat .b64 _ hf]
  exact hstage

/-- The infinities and the zeros of R23 are the binary64 patterns of R90 and are read as themselves. -/
theorem mem_specialReadings_b64 : ∀ x ∈ classConstants,
    (x.2.setWidth 128, (⟨x.2, x.1⟩ : Reading)) ∈ specialReadings f64 := by
  decide

theorem mantField_of_mem_specialPatterns (f : Fmt) : ∀ p ∈ specialPatterns (desc f), p ≠ (desc f).nan →
    mantField (desc f) p.toNat = 0 := by
  cases f <;> simp [specialPatterns, specialReadings, desc, mantField, slice]

theorem isNaNPattern_iff {F : Descriptor} {b : Nat} :
    IsNaNPattern F b ↔ expField F b = 2 ^ F.ebits - 1 ∧ mantField F b ≠ 0 := by
  rw [mantField, slice, pow_zero, Nat.div_one]
  rfl

/-- A pattern that is none of the special five is read by its fields (R152, R158). -/
theorem decodePattern_of_ne_special {F : Descriptor} {p : Pattern}
    (h : ∀ x ∈ specialPatterns F, p.toNat % 2 ^ patWidth F ≠ x.toNat) (rm : RoundMode) :
    decodePattern p F rm = decodeFields (signField F (p.toNat % 2 ^ patWidth F))
      (expField F (p.toNat % 2 ^ patWidth F)) (mantField F (p.toNat % 2 ^ patWidth F)) F rm := by
  simp only [specialPatterns, specialReadings, List.map_cons, List.forall_mem_cons] at h
  obtain ⟨hnan, hpinf, hninf, hnzero, hpzero, -⟩ := h
  simp only [decodePattern, if_neg hnan, if_neg hpinf, if_neg hninf, if_neg hnzero, if_neg hpzero]

/-- An all-ones exponent field with a non-zero mantissa field reads as the one NaN word (R154). -/
theorem decodePattern_of_isNaNPattern (f : Fmt) {p : Pattern}
    (h : IsNaNPattern (desc f) (p.toNat % 2 ^ patWidth (desc f))) (rm : RoundMode) :
    decodePattern p (desc f) rm = ⟨qnan64, .nan⟩ := by
  obtain ⟨hexp, hmant⟩ := isNaNPattern_iff.1 h
  by_cases hcanonical : p.toNat % 2 ^ patWidth (desc f) = (desc f).nan.toNat
  · simp only [decodePattern, if_pos hcanonical]
  · have hones : 2 ^ (desc f).ebits - 1 ≠ 0 := by cases f <;> decide
    rw [decodePattern_of_ne_special, decodeFields, hexp, if_neg hones, if_pos rfl, if_pos hmant]
    intro x hx heq
    refine hmant (heq ▸ mantField_of_mem_specialPatterns f x hx fun hnan => ?_)
    exact hcanonical (heq.trans (congrArg BitVec.toNat hnan))

/-- Settles O35: a finite word and its binary64 pattern have the same fields, an infinity or a zero and its
pattern are the same constant, and every NaN is canonical. -/
theorem binary64ConversionIsTheIdentity : Obligations.Binary64ConversionIsTheIdentity := by
  refine fun d rm => ⟨fun hnum => ?number, fun hnan => ?nan⟩
  case number =>
    obtain hnan | ⟨x, hx, rfl⟩ | hf := word_cases d
    · rw [← classOf_eq_nan_iff_fields d f64, classOf_eq_nan_iff, isNaNWord_iff] at hnan
      exact absurd hnan hnum
    · have hx := mem_specialReadings_b64 x hx
      exact ⟨encodeWord_special f64 rm _ hx, congrArg Reading.word (decodePattern_special .b64 rm _ hx)⟩
    · refine ⟨?_, decodePattern_setWidth_of_finiteWord hf rm⟩
      rw [encode64IsIdentity, encodeWord_eq_encodeMag hf, getMsbD_eq_signField, encodeMag_wordMag_b64 hf]
  case nan =>
    refine ⟨encodeWord_of_isNaN hnan f64 rm, congrArg Reading.word (decodePattern_of_isNaNPattern .b64 ?_ rm)⟩
    have hlow : (d.setWidth 128).toNat % 2 ^ patWidth f64 = d.toNat :=
      (congrArg (· % 2 ^ 64) (BitVec.toNat_setWidth_of_le (by norm_num))).trans (Nat.mod_eq_of_lt d.isLt)
    rw [hlow]
    exact hnan

/-! ### The pattern below the sign

The exponent and the mantissa field side by side are one number, of which the carry of R127 is the ordinary
carry and the infinity of R128 an upper bound. -/

/-- The fields of R129 before the carry, for a rational magnitude (R124, R125). -/
def magFields (M : Rat) (F : Descriptor) (rm : RoundMode) : Fields :=
  if M < pow2 (1 - (F.bias : Int)) then
    { expf := 0, mant := Rational.round (M / pow2 (1 - (F.bias : Int) - (F.mbits : Int))) rm }
  else
    { expf := (Int.log 2 M + (F.bias : Int)).toNat
      mant := Rational.round ((M / pow2 (Int.log 2 M) - 1) * 2 ^ F.mbits) rm }

/-- Two fields as one number. -/
def fieldsNat (F : Descriptor) (x : Fields) : Nat := x.expf * 2 ^ F.mbits + x.mant

/-- The number that the fields of an infinity spell (R90). -/
def infNat (F : Descriptor) : Nat := (2 ^ F.ebits - 1) * 2 ^ F.mbits

/-- The carry moves no weight (R127). -/
theorem fieldsNat_carry (F : Descriptor) (x : Fields) : fieldsNat F (carry F x) = fieldsNat F x := by
  unfold carry fieldsNat
  split
  next h => rw [h, add_mul, one_mul, add_zero]
  next => rfl

section MagFields
variable {M : Rat} {F : Descriptor} (rm : RoundMode)

theorem magFields_of_lt (h : M < pow2 (1 - (F.bias : Int))) : magFields M F rm =
    { expf := 0, mant := Rational.round (M / pow2 (1 - (F.bias : Int) - (F.mbits : Int))) rm } := if_pos h

theorem magFields_of_le (h : pow2 (1 - (F.bias : Int)) ≤ M) : magFields M F rm =
    { expf := (Int.log 2 M + (F.bias : Int)).toNat
      mant := Rational.round ((M / pow2 (Int.log 2 M) - 1) * 2 ^ F.mbits) rm } := if_neg h.not_gt

/-- A magnitude from the cutoff on has a positive exponent field (R125). -/
theorem one_le_expf (h : pow2 (1 - (F.bias : Int)) ≤ M) : 1 ≤ Int.log 2 M + (F.bias : Int) := by
  have hM : 0 < M := (pow2_pos _).trans_le h
  have hlog : 1 - (F.bias : Int) ≤ Int.log 2 M := by
    rw [← Int.zpow_le_iff_le_log (by norm_num) hM]
    exact_mod_cast h
  omega

/-- The mantissa fits its field or is one carry above it. -/
theorem magFields_mant_le (M : Rat) (F : Descriptor) : (magFields M F rm).mant ≤ 2 ^ F.mbits := by
  obtain h | h := lt_or_ge M (pow2 (1 - (F.bias : Int)))
  · rw [magFields_of_lt rm h]
    apply round_le_natCast
    rw [div_le_iff₀ (pow2_pos _), ← pow2_natCast, ← pow2_add, add_sub_cancel]
    exact h.le
  · rw [magFields_of_le rm h]
    apply round_le_natCast
    have hlog := Int.lt_zpow_succ_log_self (b := 2) (by norm_num) M
    rw [zpow_add_one₀ (by norm_num)] at hlog
    have hquot : M / pow2 (Int.log 2 M) - 1 ≤ 1 := by
      rw [sub_le_iff_le_add, div_le_iff₀ (pow2_pos _), mul_comm]
      exact_mod_cast hlog.le.trans_eq (by norm_num [pow2])
    push_cast
    exact mul_le_of_le_one_left (by positivity) hquot

/-- R129 by the carried fields: an infinity, or the fields packed. -/
theorem encodeMagNat_eq_ite (s : Bool) (M : Rat) (F : Descriptor) : Rational.encodeMagNat s M F rm =
    if 2 ^ F.ebits - 1 ≤ (carry F (magFields M F rm)).expf then (if s then F.ninf.toNat else F.pinf.toNat)
    else s.toNat <<< (F.ebits + F.mbits) ||| (carry F (magFields M F rm)).expf <<< F.mbits |||
      (carry F (magFields M F rm)).mant := by
  have hmant : (magFields M F rm).mant =
      if M < pow2 (1 - (F.bias : Int)) then
        Rational.round (M / pow2 (1 - (F.bias : Int) - (F.mbits : Int))) rm
      else Rational.round ((M / pow2 (Int.log 2 M) - 1) * 2 ^ F.mbits) rm := apply_ite Fields.mant _ _ _
  have hexpf : ((magFields M F rm).expf : Int) =
      if M < pow2 (1 - (F.bias : Int)) then 0 else Int.log 2 M + (F.bias : Int) := by
    obtain h | h := lt_or_ge M (pow2 (1 - (F.bias : Int)))
    · rw [magFields_of_lt rm h, if_pos h, Nat.cast_zero]
    · rw [magFields_of_le rm h, if_neg h.not_gt]
      exact Int.toNat_of_nonneg (by have := one_le_expf h; omega)
  unfold Rational.encodeMagNat
  simp only [← hmant, ← hexpf]
  generalize magFields M F rm = x
  have hover (n : Nat) : (2 ^ F.ebits - 1 : Int) ≤ (n : Int) ↔ 2 ^ F.ebits - 1 ≤ n := by
    have : 1 ≤ 2 ^ F.ebits := Nat.one_le_two_pow
    zify [this]
  have hsign : (if s then 1 else 0) = s.toNat := by cases s <;> rfl
  by_cases hcarry : x.mant = 2 ^ F.mbits
  · have hsucc : (x.expf : Int) + 1 = ((x.expf + 1 : Nat) : Int) := by push_cast; rfl
    simp only [carry, hcarry, if_true, hsucc, hover, hsign, Int.toNat_natCast]
  · simp only [carry, hcarry, if_false, hover, hsign, Int.toNat_natCast]

end MagFields

/-- Fields in range, packed, are their positional sum (R126). -/
theorem lor_fields_eq_packNat {F : Descriptor} (s : Bool) {E T : Nat} (hE : E < 2 ^ F.ebits)
    (hT : T < 2 ^ F.mbits) :
    s.toNat <<< (F.ebits + F.mbits) ||| E <<< F.mbits ||| T = packNat F s E T := by
  have hlow : E * 2 ^ F.mbits + T < 2 ^ (F.ebits + F.mbits) := by
    rw [pow_add]; nlinarith
  rw [Nat.lor_assoc, ← Nat.shiftLeft_add_eq_or_of_lt hT, Nat.shiftLeft_eq E,
    ← Nat.shiftLeft_add_eq_or_of_lt hlow, Nat.shiftLeft_eq, packNat, add_assoc]

theorem desc_inf_toNat (f : Fmt) (s : Bool) : (if s then (desc f).ninf.toNat else (desc f).pinf.toNat) =
    s.toNat * 2 ^ ((desc f).ebits + (desc f).mbits) + infNat (desc f) := by
  cases f <;> cases s <;> rfl

/-- The pattern of a magnitude: the sign bit over the rounded fields, cut off at the infinity. -/
theorem encodeMagNat_eq (f : Fmt) (M : Rat) (s : Bool) (rm : RoundMode) :
    Rational.encodeMagNat s M (desc f) rm = s.toNat * 2 ^ ((desc f).ebits + (desc f).mbits) +
      min (fieldsNat (desc f) (magFields M (desc f) rm)) (infNat (desc f)) := by
  have hmant := carry_mant_lt (magFields_mant_le rm M (desc f))
  rw [encodeMagNat_eq_ite, ← fieldsNat_carry]
  generalize carry (desc f) (magFields M (desc f) rm) = y at hmant
  split
  next hover =>
    have hle : infNat (desc f) ≤ fieldsNat (desc f) y :=
      (Nat.mul_le_mul_right _ hover).trans (Nat.le_add_right _ _)
    rw [desc_inf_toNat, min_eq_right hle]
  next hfits =>
    have hlt : fieldsNat (desc f) y ≤ infNat (desc f) := by
      have := Nat.mul_le_mul_right (2 ^ (desc f).mbits) (show y.expf + 1 ≤ 2 ^ (desc f).ebits - 1 by omega)
      rw [add_mul] at this
      unfold fieldsNat infNat
      omega
    rw [lor_fields_eq_packNat s (by omega) hmant, min_eq_left hlt, packNat, add_assoc]
    rfl

theorem infNat_lt (F : Descriptor) : infNat F < 2 ^ (F.ebits + F.mbits) := by
  rw [infNat, pow_add]
  exact Nat.mul_lt_mul_of_pos_right (Nat.sub_lt (by positivity) one_pos) (by positivity)

/-! ### The encoder is monotone -/

theorem fieldsNat_le_of_expf_lt {F : Descriptor} {x y : Fields} (hmant : x.mant ≤ 2 ^ F.mbits)
    (hlt : x.expf < y.expf) : fieldsNat F x ≤ fieldsNat F y := by
  have hexpf := Nat.mul_le_mul_right (2 ^ F.mbits) (Nat.succ_le_of_lt hlt)
  rw [Nat.succ_mul] at hexpf
  unfold fieldsNat
  omega

/-- A larger magnitude never has smaller fields: within a branch and a binade the arbiter is monotone, and the
fields of a binade end where those of the next begin. -/
theorem fieldsNat_magFields_mono {M₁ M₂ : Rat} (F : Descriptor) (rm : RoundMode) (hM : 0 < M₁)
    (hle : M₁ ≤ M₂) :
    fieldsNat F (magFields M₁ F rm) ≤ fieldsNat F (magFields M₂ F rm) := by
  have hcarry := fieldsNat_le_of_expf_lt (y := magFields M₂ F rm) (magFields_mant_le rm M₁ F)
  obtain h₂ | h₂ := lt_or_ge M₂ (pow2 (1 - (F.bias : Int)))
  · rw [magFields_of_lt rm h₂, magFields_of_lt rm (hle.trans_lt h₂)]
    exact Nat.add_le_add_left (round_mono rm (div_le_div_of_nonneg_right hle (pow2_pos _).le)) _
  have hpos := one_le_expf h₂
  obtain h₁ | h₁ := lt_or_ge M₁ (pow2 (1 - (F.bias : Int)))
  · apply hcarry
    rw [magFields_of_lt rm h₁, magFields_of_le rm h₂]
    dsimp only
    omega
  obtain hlog | hlog := (Int.log_mono_right (b := 2) hM hle).lt_or_eq
  · apply hcarry
    rw [magFields_of_le rm h₁, magFields_of_le rm h₂]
    dsimp only
    omega
  · rw [magFields_of_le rm h₁, magFields_of_le rm h₂, hlog]
    refine Nat.add_le_add_left (round_mono rm ?_) _
    exact mul_le_mul_of_nonneg_right
      (sub_le_sub_right (div_le_div_of_nonneg_right hle (pow2_pos _).le) 1) (by positivity)

/-- Settles O38: the sign bit falls away, and both the fields and their cut at the infinity are monotone. -/
theorem encoderIsMonotone : Obligations.EncoderIsMonotone := by
  intro s f rm M₁ M₂ hM hle
  have hlow (M : Rat) :
      Rational.encodeMagNat s M (desc f) rm % 2 ^ (patWidth (desc f) - 1) =
        min (fieldsNat (desc f) (magFields M (desc f) rm)) (infNat (desc f)) := by
    rw [encodeMagNat_eq, patWidth, Nat.add_sub_cancel, Nat.mul_add_mod_self_right,
      Nat.mod_eq_of_lt ((min_le_right _ _).trans_lt (infNat_lt _))]
  rw [encodeOrdered, hlow, hlow]
  exact min_le_min_right _ (fieldsNat_magFields_mono (desc f) rm hM hle)

/-! ### Representable magnitudes, the sign, and the NaN patterns -/

/-- A sign over fields that are at most an infinity's is a pattern of the format. -/
theorem add_lt_of_le_infNat {F : Descriptor} (s : Bool) {n : Nat} (hn : n ≤ infNat F) :
    s.toNat * 2 ^ (F.ebits + F.mbits) + n < 2 ^ patWidth F := by
  have hlow := hn.trans_lt (infNat_lt F)
  have hsign := Nat.mul_le_mul_right (2 ^ (F.ebits + F.mbits)) (Bool.toNat_le s)
  rw [patWidth, pow_succ]
  omega

theorem encodeMagNat_lt (f : Fmt) (M : Rat) (s : Bool) (rm : RoundMode) :
    Rational.encodeMagNat s M (desc f) rm < 2 ^ patWidth (desc f) := by
  rw [encodeMagNat_eq]
  exact add_lt_of_le_infNat s (min_le_right _ _)

/-- No bit of `EncodeMag`'s number is lost in `PAT`. -/
theorem rational_encodeMag_toNat (f : Fmt) (M : Rat) (s : Bool) (rm : RoundMode) :
    (Rational.encodeMag s M (desc f) rm).toNat = Rational.encodeMagNat s M (desc f) rm := by
  rw [Rational.encodeMag, BitVec.toNat_ofNat, Nat.mod_eq_of_lt]
  exact (encodeMagNat_lt f M s rm).trans_le (Nat.pow_le_pow_right two_pos (patWidth_desc_le f))

theorem signField_eq_testBit (F : Descriptor) (b : Nat) : signField F b = b.testBit (patWidth F - 1) := by
  simp [signField, slice, patWidth, Nat.testBit_eq_decide_div_mod_eq, beq_eq_decide]

/-- The fields of a finite non-zero pattern (R153, R155). -/
theorem finiteFields_of_finiteNonZero {F : Descriptor} {b : Nat} (h : FiniteNonZero F b) :
    FiniteFields F (expField F b) (mantField F b) := by
  obtain ⟨-, hexp, hnz⟩ := h
  have hlt : expField F b < 2 ^ F.ebits := Nat.mod_lt _ (by positivity)
  refine ⟨by change expField F b ≠ _ at hexp; omega, Nat.mod_lt _ (by positivity), fun hE hT => hnz ?_⟩
  rw [add_comm F.ebits, pow_add, Nat.mod_mul]
  rw [mantField, slice, pow_zero, Nat.div_one] at hT
  rw [hT, show b / 2 ^ F.mbits % 2 ^ F.ebits = 0 from hE]
  rfl

/-- Settles O37: the datapath answers the fields of the pattern (`encodeMag_exact`), and it is the rational
rule. -/
theorem representableMagnitudesEncodeExactly : Obligations.RepresentableMagnitudesEncodeExactly := by
  intro f b rm h
  have hlt : b < 2 ^ patWidth (desc f) := h.1
  have hexact := encodeMag_exact (finiteFields_of_finiteNonZero h) rfl (signField (desc f) b) rm
  rw [encodeMag_eq_rational, magValue_fieldMag, packNat_fields hlt] at hexact
  have hnat := congrArg BitVec.toNat hexact
  rw [rational_encodeMag_toNat, BitVec.toNat_ofNat, Nat.mod_eq_of_lt
    (hlt.trans_le (Nat.pow_le_pow_right two_pos (patWidth_desc_le f))), signField_eq_testBit, mantField, slice,
    pow_zero, Nat.div_one] at hnat
  exact hnat

/-- `EncodeMag` of the datapath as the sign bit over the fields. -/
theorem encodeMag_toNat (f : Fmt) (M : Mag) (s : Bool) (rm : RoundMode) :
    (encodeMag s M (desc f) rm).toNat = s.toNat * 2 ^ ((desc f).ebits + (desc f).mbits) +
      min (fieldsNat (desc f) (magFields (magValue M) (desc f) rm)) (infNat (desc f)) := by
  rw [encodeMag_eq_rational, rational_encodeMag_toNat, encodeMagNat_eq]

section SignAndFields
variable {F : Descriptor} (s : Bool) {n : Nat}

/-- A number below the sign bit is an exponent and a mantissa field. -/
theorem add_eq_packNat :
    s.toNat * 2 ^ (F.ebits + F.mbits) + n = packNat F s (n / 2 ^ F.mbits) (n % 2 ^ F.mbits) := by
  rw [packNat, add_assoc, Nat.div_add_mod']

theorem div_lt_of_le_infNat (hn : n ≤ infNat F) : n / 2 ^ F.mbits < 2 ^ F.ebits := by
  rw [Nat.div_lt_iff_lt_mul (by positivity), ← pow_add]
  exact hn.trans_lt (infNat_lt F)

theorem signField_add (hn : n ≤ infNat F) : signField F (s.toNat * 2 ^ (F.ebits + F.mbits) + n) = s := by
  rw [add_eq_packNat, signField_packNat s (div_lt_of_le_infNat hn) (Nat.mod_lt _ (by positivity))]

/-- The one number up to the infinity's with an all-ones exponent field is the infinity's, whose mantissa
field is zero. -/
theorem not_isNaNPattern_add (hn : n ≤ infNat F) :
    ¬ IsNaNPattern F (s.toNat * 2 ^ (F.ebits + F.mbits) + n) := by
  have hmant : n % 2 ^ F.mbits < 2 ^ F.mbits := Nat.mod_lt _ (by positivity)
  rw [isNaNPattern_iff, add_eq_packNat, expField_packNat s (div_lt_of_le_infNat hn) hmant, mantField_packNat s hmant]
  rintro ⟨hones, hnz⟩
  have hsplit := Nat.div_add_mod' n (2 ^ F.mbits)
  rw [hones, ← infNat] at hsplit
  omega

end SignAndFields

/-- Settles O33: the sign bit stands over the fields (`encodeMag_toNat`). -/
theorem encoderPreservesTheSign : Obligations.EncoderPreservesTheSign := by
  intro d neg M h f rm
  obtain ⟨hf, -, -⟩ := finiteWord_of_rational h
  rw [encodeKeepsSign, encodeWord_eq_encodeMag hf, BitVec.getLsbD, ← signField_eq_testBit, encodeMag_toNat,
    signField_add _ (min_le_right _ _), getMsbD_eq_signField, signField_eq_testBit]
  rfl

/-- A word that is no NaN is encoded to a sign over fields that are at most an infinity's. -/
theorem encodeWord_toNat_of_not_isNaN {d : Word} (h : ¬ Rational.IsNaN d) (f : Fmt) (rm : RoundMode) :
    ∃ (s : Bool) (n : Nat), n ≤ infNat (desc f) ∧
      (encodeWord d (desc f) rm).toNat = s.toNat * 2 ^ ((desc f).ebits + (desc f).mbits) + n := by
  unfold encodeWord
  cases hd : val64 d with
  | nan =>
    rw [← isNaNWord_iff, isNaNWord, hd] at h
    exact absurd rfl h
  | inf s => exact ⟨s, _, le_rfl, by rw [← desc_inf_toNat]; cases s <;> rfl⟩
  | zero s => exact ⟨s, 0, Nat.zero_le _, by cases f <;> cases s <;> rfl⟩
  | finite s M => exact ⟨s, _, min_le_right _ _, encodeMag_toNat f M s rm⟩

theorem isNaNPattern_nan (f : Fmt) : IsNaNPattern (desc f) (desc f).nan.toNat := by
  unfold IsNaNPattern
  cases f <;> decide

/-- Settles O34: a NaN word gives the canonical NaN, and every other pattern lies at or below an infinity. -/
theorem onlyNaNEncodesToNaN : Obligations.OnlyNaNEncodesToNaN := by
  intro d f rm
  by_cases h : Rational.IsNaN d
  · rw [encodeWord_of_isNaN h]
    exact iff_of_true (isNaNPattern_nan f) h
  · obtain ⟨s, n, hn, hnat⟩ := encodeWord_toNat_of_not_isNaN h f rm
    rw [hnat]
    exact iff_of_false (not_isNaNPattern_add s hn) h

/-! ### `ENCODE` -/

theorem encodeWord_toNat_lt (d : Word) (f : Fmt) (rm : RoundMode) :
    (encodeWord d (desc f) rm).toNat < 2 ^ patWidth (desc f) := by
  by_cases h : Rational.IsNaN d
  · rw [encodeWord_of_isNaN h]
    exact specialPatterns_desc_lt f _ (List.mem_cons_self ..)
  · obtain ⟨s, n, hn, hnat⟩ := encodeWord_toNat_of_not_isNaN h f rm
    rw [hnat]
    exact add_lt_of_le_infNat s hn

theorem encode_encode_eq_ofNat (f : Fmt) (rm : RoundMode) :
    encode (.encode f rm) = BitVec.ofNat 64 (0x02 + 0x10 * fmtCode f + 0x40 * rmCode rm) := by
  cases f <;> cases rm <;> rfl

/-- The words of `ENCODE` (R84). -/
theorem encode_mem_of_row_encode (i : Instr) (_ : WellFormed i = true) (hrow : row i = .encode) :
    encode i ∈ [0x02#64, 0x12#64, 0x22#64, 0x32#64, 0x42#64, 0x52#64, 0x62#64, 0x72#64] := by
  cases i with
  | encode f rm => cases f <;> cases rm <;> decide
  | _ => cases hrow

/-- Settles O28: the arm of `exec` with the rational pattern and class, reached by the word of the command; the
other words of the operation are the encoding of none of its commands. -/
theorem encodeLeavesThePatternOfVal : Obligations.EncodeLeavesThePatternOfVal := by
  refine fun s => ⟨fun f rm => ?_, refusesOtherWords_of_forall_encode_mem rfl encode_mem_of_row_encode s⟩
  have hexec := exec_encode f rm s
  have hlt := encodeWord_toNat_lt s.val f rm
  rw [classOf_eq_rational, encodeWord_eq_rational] at hexec
  rw [encodeWord_eq_rational] at hlt
  rw [← encode_encode_eq_ofNat]
  exact ⟨hexec, (regWrite_accepted _ s (decode_encode _ rfl)).trans hexec, hlt⟩

end Sys2Proof.Machine

/-! The decoder and `DECODE` (spec/43_decode.md R150 to R159). -/

namespace Sys2Proof.Machine

/-! ### `DECODE` -/

open Laws.MatchesRow (row)

theorem encode_decode_eq_ofNat (f : Fmt) (rm : RoundMode) :
    encode (.decode f rm) = BitVec.ofNat 64 (0x03 + 0x10 * fmtCode f + 0x40 * rmCode rm) := by
  cases f <;> cases rm <;> rfl

/-- The words of `DECODE` (R84). -/
theorem encode_mem_of_row_decode (i : Instr) (_ : WellFormed i = true) (hrow : row i = .decode) :
    encode i ∈ [0x03#64, 0x13#64, 0x23#64, 0x33#64, 0x43#64, 0x53#64, 0x63#64, 0x73#64] := by
  cases i with
  | decode f rm => cases f <;> cases rm <;> decide
  | _ => cases hrow

/-- Settles O40: the arm of `exec` with the rational reading, reached by the word of the command; the other
words of the operation are the encoding of none of its commands. -/
theorem decodeLeavesTheValueOfPat : Obligations.DecodeLeavesTheValueOfPat := by
  refine fun s => ⟨fun f rm => ?_, refusesOtherWords_of_forall_encode_mem rfl encode_mem_of_row_decode s⟩
  have hexec := exec_decode f rm s
  rw [← decodePattern_eq_rational, ← encode_decode_eq_ofNat]
  exact ⟨hexec, (regWrite_accepted _ s (decode_encode _ rfl)).trans hexec⟩

/-! ### The special patterns -/

/-- Settles O41: the listed patterns, words and classes are `specialReadings`. -/
theorem specialPatternsAreFixpoints : Obligations.SpecialPatternsAreFixpoints := by
  intro f rm rm' F x hx
  have hreading : (x.1, (⟨x.2.1, x.2.2⟩ : Reading)) ∈ specialReadings F :=
    List.mem_map_of_mem (f := fun x => (x.1, (⟨x.2.1, x.2.2⟩ : Reading))) hx
  exact ⟨decodePattern_special f rm _ hreading, encodeWord_special F rm' _ hreading⟩

/-! ### A content of `PAT` by its fields -/

/-- The bits above a slice do not reach it. -/
theorem slice_mod_two_pow {lo len w : Nat} (h : lo + len ≤ w) (n : Nat) :
    slice (n % 2 ^ w) lo len = slice n lo len := by
  obtain ⟨k, rfl⟩ := Nat.exists_eq_add_of_le h
  rw [slice, slice, add_assoc, pow_add, Nat.mod_mul_right_div_self,
    Nat.mod_mod_of_dvd _ (pow_dvd_pow 2 (Nat.le_add_right len k))]

section Content
variable (F : Descriptor)

/-! The bits of `PAT` at and above the format's width are in none of the three fields (R151, R152). -/

theorem expField_mod_patWidth (n : Nat) : expField F (n % 2 ^ patWidth F) = expField F n :=
  slice_mod_two_pow (by rw [patWidth]; omega) n

theorem mantField_mod_patWidth (n : Nat) : mantField F (n % 2 ^ patWidth F) = mantField F n :=
  slice_mod_two_pow (by rw [patWidth]; omega) n

theorem signField_mod_patWidth (n : Nat) : signField F (n % 2 ^ patWidth F) = signField F n :=
  congrArg (· == 1) (slice_mod_two_pow (by rw [patWidth]) n)

theorem mantField_eq_mod (b : Nat) : mantField F b = b % 2 ^ F.mbits := by
  rw [mantField, slice, pow_zero, Nat.div_one]

/-- The sign field of the content of `PAT` is its bit `F.W - 1` (R158). -/
theorem signField_toNat (p : Pattern) : signField F p.toNat = p.getLsbD (patWidth F - 1) :=
  signField_eq_testBit F p.toNat

/-- The low bits of a content of `PAT` are spelt by its fields (R152). -/
theorem mod_patWidth_eq_packNat (n : Nat) :
    n % 2 ^ patWidth F = packNat F (signField F n) (expField F n) (mantField F n) := by
  have hfields := packNat_fields (F := F) (Nat.mod_lt n (by positivity))
  rwa [signField_mod_patWidth, expField_mod_patWidth, mantField_mod_patWidth, eq_comm] at hfields

end Content

/-- An all-ones exponent over a zero mantissa spells the infinity of its sign (R90). -/
theorem ofNat_packNat_inf (f : Fmt) (s : Bool) :
    BitVec.ofNat 128 (packNat (desc f) s (2 ^ (desc f).ebits - 1) 0) =
      if s then (desc f).ninf else (desc f).pinf := by
  cases f <;> cases s <;> rfl

/-- `PAT` holds at least the format's bits of a number (R24). -/
theorem toNat_ofNat_mod_patWidth (f : Fmt) (n : Nat) :
    (BitVec.ofNat 128 n).toNat % 2 ^ patWidth (desc f) = n % 2 ^ patWidth (desc f) := by
  rw [BitVec.toNat_ofNat, Nat.mod_mod_of_dvd _ (pow_dvd_pow 2 (patWidth_desc_le f))]

/-- The decoder sees the fields alone (R151, R152). -/
theorem decodePattern_eq_packNat (f : Fmt) (p : Pattern) (rm : RoundMode) : decodePattern p (desc f) rm =
    decodePattern (BitVec.ofNat 128 (packNat (desc f) (signField (desc f) p.toNat) (expField (desc f) p.toNat)
      (mantField (desc f) p.toNat))) (desc f) rm := by
  apply decodePattern_congr
  rw [← mod_patWidth_eq_packNat, toNat_ofNat_mod_patWidth, Nat.mod_mod]

/-- An all-ones exponent field with a zero mantissa field reads as the infinity of the sign (R151, R154). -/
theorem decodePattern_of_inf {f : Fmt} {p : Pattern}
    (hE : expField (desc f) p.toNat = 2 ^ (desc f).ebits - 1) (hT : mantField (desc f) p.toNat = 0)
    (rm : RoundMode) : decodePattern p (desc f) rm =
      if signField (desc f) p.toNat then ⟨ninf64, .ninf⟩ else ⟨pinf64, .pinf⟩ := by
  rw [decodePattern_eq_packNat, hE, hT, ofNat_packNat_inf]
  cases signField (desc f) p.toNat
  · exact decodePattern_special f rm ((desc f).pinf, ⟨pinf64, .pinf⟩) (by simp [specialReadings])
  · exact decodePattern_special f rm ((desc f).ninf, ⟨ninf64, .ninf⟩) (by simp [specialReadings])

/-- Settles O42: a NaN pattern by `decodePattern_of_isNaNPattern`, an infinity by its fields. -/
theorem allOnesExponentDecodesToNaNOrInfinity : Obligations.AllOnesExponentDecodesToNaNOrInfinity := by
  intro p f rm F hE
  rw [← mantField_eq_mod, ← signField_toNat]
  refine ⟨fun hT => decodePattern_of_isNaNPattern f (isNaNPattern_iff.2 ?_) rm,
    fun hT => decodePattern_of_inf hE hT rm⟩
  rw [expField_mod_patWidth, mantField_mod_patWidth]
  exact ⟨hE, hT⟩

/-! ### The three narrower formats -/

/-- The output stage is exact on the magnitudes of the narrower formats, which are binary64's (R157). -/
theorem rational_val64_outputStage {f : Fmt} (hf : f ≠ .b128) {E T : Nat} (hfields : FiniteFields (desc f) E T)
    (s : Bool) (rm : RoundMode) : Rational.val64 (outputStage s (fieldMag (desc f) E T) rm) =
      .finite s (Rational.patternMag E T (desc f)) := by
  obtain ⟨E', T', hfields', hmag⟩ := isMagnitude_of_fits (desc_fits_binary64 hf) hfields
  rw [outputStage, encodeMag_exact hfields' hmag, BitVec.setWidth_ofNat_of_le (by norm_num), rational_val64,
    val64_packNat hfields', Value.toRat, ← hmag, magValue_fieldMag]

/-- Settles O43: a finite non-zero pattern is read by its fields (`decodePattern_packNat`), and the output
stage has nothing to round (`rational_val64_outputStage`). -/
theorem narrowPatternsDecodeExactly : Obligations.NarrowPatternsDecodeExactly := by
  intro p f rm F hf hfinite
  have hfields := finiteFields_of_finiteNonZero hfinite
  rw [expField_mod_patWidth, mantField_mod_patWidth] at hfields
  rw [decodePattern_eq_packNat, decodePattern_packNat f _ hfields, ← mantField_eq_mod, ← signField_toNat]
  exact ⟨rational_val64_outputStage hf hfields _ rm, rfl⟩

/-- A pattern is a NaN's, is an infinity or a zero, or has finite non-zero fields. -/
theorem pattern_cases (f : Fmt) {b : Nat} (hb : b < 2 ^ patWidth (desc f)) : IsNaNPattern (desc f) b ∨
    BitVec.ofNat 128 b ∈ specialPatterns (desc f) ∨
      FiniteFields (desc f) (expField (desc f) b) (mantField (desc f) b) := by
  have hexp : expField (desc f) b < 2 ^ (desc f).ebits := Nat.mod_lt _ (by positivity)
  have hmant : mantField (desc f) b < 2 ^ (desc f).mbits := Nat.mod_lt _ (by positivity)
  have hpack := packNat_fields hb
  by_cases hE : expField (desc f) b = 2 ^ (desc f).ebits - 1
  · by_cases hT : mantField (desc f) b = 0
    · right; left
      rw [← hpack, hE, hT, ofNat_packNat_inf]
      cases signField (desc f) b <;> simp [specialPatterns, specialReadings]
    · exact .inl (isNaNPattern_iff.2 ⟨hE, hT⟩)
  · by_cases hzero : expField (desc f) b = 0 ∧ mantField (desc f) b = 0
    · right; left
      rw [← hpack, hzero.1, hzero.2, ofNat_packNat_zero]
      cases signField (desc f) b <;> simp [specialPatterns, specialReadings]
    · exact .inr (.inr ⟨by omega, hmant, fun hE0 hT0 => hzero ⟨hE0, hT0⟩⟩)

/-- The round trip of R159 (d), for every pattern but the non-canonical NaNs. -/
theorem roundTrips_of_not_nonCanonicalNaN {f : Fmt} (hf : f ≠ .b128) {b : Nat} (hb : b < 2 ^ patWidth (desc f))
    (h : ¬ NonCanonicalNaN (desc f) b) : RoundTrips (desc f) (BitVec.ofNat 128 b) := by
  obtain ⟨hexp, hmant⟩ | hspecial | hfields := pattern_cases f hb
  · have hcanonical : b = (desc f).nan.toNat := by_contra fun hne => h ⟨hexp, hmant, hne⟩
    rw [hcanonical, BitVec.ofNat_toNat, BitVec.setWidth_eq]
    exact roundTrips_special f _ (List.mem_cons_self ..)
  · exact roundTrips_special f _ hspecial
  · rw [← packNat_fields hb]
    exact roundTrips_packNat f _ hfields (isMagnitude_of_fits (desc_fits_binary64 hf) hfields)

/-- Settles O44: the special and the finite patterns round-trip, and any other NaN is read as the one NaN
word, which is encoded to the canonical pattern. -/
theorem encodeInvertsDecodeOnPatterns : Obligations.EncodeInvertsDecodeOnPatterns := by
  refine fun f b rm rm' hf hb => ⟨fun h => ?_, fun ⟨hexp, hmant, _⟩ => ?_⟩
  · obtain ⟨r, hr⟩ := roundTrips_of_not_nonCanonicalNaN hf hb h
    rw [(hr rm).1, (hr rm').2]
  · have hread := (toNat_ofNat_mod_patWidth f b).trans (Nat.mod_eq_of_lt hb)
    rw [decodePattern_of_isNaNPattern f (hread.symm ▸ ⟨hexp, hmant⟩)]
    exact encodeWord_special (desc f) rm' _ (List.mem_cons_self ..)

end Sys2Proof.Machine

/-! The round-trip composer: `ROUND`, `ISFLOAT` and the value equality (spec/44_roundtrip.md R170 to R175). -/

namespace Sys2Proof.Machine

open Laws.MatchesRow (row)

open Rational (magValue)

/-! ### `ROUND` -/

/-- The eight words of a command with a format and a mode: one for each value of the two adjacent fields, `RM`
above `FMT` (R70, R84). -/
theorem modeWord_mem (op : Nat) (f : Fmt) (rm : RoundMode) :
    BitVec.ofNat 64 (op + 0x10 * fmtCode f + 0x40 * rmCode rm) ∈
      (List.range 8).map fun k => BitVec.ofNat 64 (op + 0x10 * k) := by
  have hf := fmtCode_lt f
  have hrm := rmCode_lt rm
  refine List.mem_map.2 ⟨fmtCode f + 4 * rmCode rm, List.mem_range.2 (by omega), ?_⟩
  congr 1
  ring

theorem encode_round_eq_ofNat (f : Fmt) (rm : RoundMode) :
    encode (.round f rm) = BitVec.ofNat 64 (0x04 + 0x10 * fmtCode f + 0x40 * rmCode rm) := by
  cases f <;> cases rm <;> rfl

/-- The words of `ROUND` (R84). -/
theorem encode_mem_of_row_round (i : Instr) (_ : WellFormed i = true) (hrow : row i = .round) :
    encode i ∈ [0x04#64, 0x14#64, 0x24#64, 0x34#64, 0x44#64, 0x54#64, 0x64#64, 0x74#64] := by
  cases i with
  | round f rm =>
    rw [encode_round_eq_ofNat]
    exact modeWord_mem 0x04 f rm
  | _ => cases hrow

/-- `ROUND` leaves the triple of R171 in the form the spec writes it. -/
theorem exec_round_eq_rational (f : Fmt) (rm : RoundMode) (s : State) : exec (.round f rm) s =
    .next { s with
      pat := (Rational.roundTo s.val (desc f) rm).1, val := (Rational.roundTo s.val (desc f) rm).2.1,
      cls := (Rational.roundTo s.val (desc f) rm).2.2, q := false } := by
  rw [← roundTo_eq_rational]
  exact exec_round f rm s

/-- `DECODE` after `ENCODE` is `ROUND`: it reads the pattern just written and writes over the class (R170). -/
theorem exec_encode_decode (f : Fmt) (rm : RoundMode) (s : State) :
    ∃ u, exec (.encode f rm) s = .next u ∧ exec (.decode f rm) u = exec (.round f rm) s :=
  ⟨_, exec_encode f rm s, exec_decode f rm _⟩

/-- Settles O45: the arm of `exec` in the rational form, reached by the word of the command and by `ENCODE` and
`DECODE`; the other words of the operation are the encoding of none of its commands. -/
theorem roundIsEncodeThenDecode : Obligations.RoundIsEncodeThenDecode := by
  refine fun s => ⟨fun f rm => ?_, refusesOtherWords_of_forall_encode_mem rfl encode_mem_of_row_round s⟩
  have hexec := exec_round_eq_rational f rm s
  obtain ⟨u, hencode, hdecode⟩ := exec_encode_decode f rm s
  rw [← encode_round_eq_ofNat]
  exact ⟨_, u, rfl, hexec, (regWrite_accepted _ s (decode_encode _ rfl)).trans hexec, hencode,
    hdecode.trans hexec⟩

/-- Settles O46: the second `ROUND` starts from the value of the first, whose round trip is the same triple. -/
theorem roundIsIdempotent : Obligations.RoundIsIdempotent := by
  intro f rm rm' s
  refine ⟨_, exec_round f rm s, ?_⟩
  rw [exec_round, complete_val, roundTo_roundTo]
  rfl

/-! ### Value equality -/

/-- Settles O48: the model's comparison is R174's (`valEq_iff`), read clause by clause. -/
theorem valueEqualityIsThatOfDoubles : Obligations.ValueEqualityIsThatOfDoubles := by
  intro a b
  rw [← Bool.not_eq_true, valEq_iff]
  exact ⟨fun hnan ⟨ha, hb, _⟩ => hnan.elim ha hb, fun ha hb hzeros => ⟨ha, hb, .inl hzeros⟩,
    fun ha hb hzeros => ⟨fun ⟨_, _, h⟩ => h.resolve_left hzeros, fun h => ⟨ha, hb, .inr h⟩⟩⟩

theorem valEq_self {d : Word} (h : ¬ Rational.IsNaN d) : valEq d d = true :=
  (valEq_iff d d).2 ⟨h, h, .inr rfl⟩

/-- A word is a NaN by its binary64 fields (R22). -/
theorem isNaN_iff_fields (d : Word) :
    Rational.IsNaN d ↔ expField f64 d.toNat = 2047 ∧ mantField f64 d.toNat ≠ 0 := by
  rw [mantField_eq_mod]
  rfl

theorem not_isNaN_of_finiteWord {d : Word} (hd : FiniteWord d) : ¬ Rational.IsNaN d := fun h =>
  ((finiteWord_iff d).1 hd).1 ((isNaN_iff_fields d).1 h).1

theorem not_isNaN_of_mem_classConstants : ∀ x ∈ classConstants, ¬ Rational.IsNaN x.2 := by
  unfold Rational.IsNaN
  decide

/-- The constants of R23 are no finite non-zero words. -/
theorem not_finiteWord_of_mem_specialReadings (F : Descriptor) :
    ∀ x ∈ specialReadings F, ¬ FiniteWord x.2.word := by
  simp only [specialReadings, List.forall_mem_cons, finiteWord_iff]
  decide

/-- Only the zeros equal another word as a value (R174). -/
theorem valEq_iff_eq_of_finiteWord {d : Word} (hd : FiniteWord d) (w : Word) : valEq d w = true ↔ d = w := by
  constructor
  · intro h
    obtain ⟨-, -, ⟨rfl | rfl, -⟩ | heq⟩ := (valEq_iff d w).1 h
    · exact absurd hd (not_finiteWord_of_mem_specialReadings f64 (f64.pzero, ⟨pzero64, .pzero⟩) (by decide))
    · exact absurd hd (not_finiteWord_of_mem_specialReadings f64 (f64.nzero, ⟨nzero64, .nzero⟩) (by decide))
    · exact heq
  · rintro rfl
    exact valEq_self (not_isNaN_of_finiteWord hd)

/-! ### `ISFLOAT` -/

theorem encode_isfloat_eq_ofNat (f : Fmt) (rm : RoundMode) :
    encode (.isfloat f rm) = BitVec.ofNat 64 (0x05 + 0x10 * fmtCode f + 0x40 * rmCode rm) := by
  cases f <;> cases rm <;> rfl

/-- The words of `ISFLOAT` (R84). -/
theorem encode_mem_of_row_isfloat (i : Instr) (_ : WellFormed i = true) (hrow : row i = .isfloat) :
    encode i ∈ [0x05#64, 0x15#64, 0x25#64, 0x35#64, 0x45#64, 0x55#64, 0x65#64, 0x75#64] := by
  cases i with
  | isfloat f rm =>
    rw [encode_isfloat_eq_ofNat]
    exact modeWord_mem 0x05 f rm
  | _ => cases hrow

/-- Settles O47: the arm of `exec`, whose comparison and class are the rational ones, reached by the word of the
command; the other words of the operation are the encoding of none of its commands. -/
theorem isfloatComparesValWithItsRoundTrip : Obligations.IsfloatComparesValWithItsRoundTrip := by
  refine fun s => ⟨fun f rm => ?_, refusesOtherWords_of_forall_encode_mem rfl encode_mem_of_row_isfloat s⟩
  have hexec := exec_isfloat f rm s
  rw [← encode_isfloat_eq_ofNat, ← roundTo_word_eq_rational, ← valEq_iff, ← classOf_eq_rational]
  exact ⟨_, hexec, (regWrite_accepted _ s (decode_encode _ rfl)).trans hexec, Iff.rfl, rfl⟩

/-! ### The values of a format -/

/-- The word holds a value of row `F`: a zero, an infinity, or the value of a finite non-zero pattern (R175). -/
def IsFormatValue (F : Descriptor) (d : Word) : Prop :=
  (∃ neg, Rational.val64 d = .zero neg ∨ Rational.val64 d = .inf neg) ∨
    ∃ b, FiniteNonZero F b ∧ Rational.val64 d = .finite (b.testBit (patWidth F - 1))
      (Rational.patternMag (b / 2 ^ F.mbits % 2 ^ F.ebits) (b % 2 ^ F.mbits) F)

theorem not_isFormatValue_of_isNaN {d : Word} (h : Rational.IsNaN d) (F : Descriptor) :
    ¬ IsFormatValue F d := by
  have hnan : val64 d = .nan := eq_of_beq ((isNaNWord_iff d).2 h)
  simp [IsFormatValue, rational_val64, hnan, Value.toRat]

theorem isFormatValue_of_mem_classConstants (F : Descriptor) : ∀ x ∈ classConstants, IsFormatValue F x.2 := by
  simp [classConstants, IsFormatValue, rational_val64, val64_constants, Value.toRat]

/-- Packed finite non-zero fields are a finite non-zero pattern. -/
theorem finiteNonZero_packNat {F : Descriptor} {E T : Nat} (hf : FiniteFields F E T) (s : Bool) :
    FiniteNonZero F (packNat F s E T) := by
  have hexp := expField_packNat s hf.expf_lt_pow hf.mant_lt
  have hmant := mantField_packNat (E := E) s hf.mant_lt
  refine ⟨packNat_lt s hf.expf_lt_pow hf.mant_lt, hexp.trans_ne hf.expf_lt.ne, fun hzero => ?_⟩
  rw [add_comm F.ebits, pow_add, Nat.mod_mul, ← mantField_eq_mod, hmant, Nat.add_eq_zero_iff] at hzero
  obtain ⟨hT, hE⟩ := hzero
  exact hf.ne_zero (hexp.symm.trans ((mul_eq_zero_iff_left (by positivity)).1 hE)) hT

theorem rational_val64_of_finiteWord {d : Word} (hd : FiniteWord d) :
    Rational.val64 d = .finite (d.getMsbD 0) (magValue (wordMag d)) := by
  rw [rational_val64, val64_eq_wordMag hd, Value.toRat]

/-- A finite non-zero word holds a value of the row exactly when its magnitude is one of the row's. -/
theorem isFormatValue_iff_isMagnitude {d : Word} (hd : FiniteWord d) (F : Descriptor) :
    IsFormatValue F d ↔ IsMagnitude F (magValue (wordMag d)) := by
  rw [IsFormatValue, rational_val64_of_finiteWord hd]
  constructor
  · rintro (⟨_, h | h⟩ | ⟨b, hb, h⟩)
    · cases h
    · cases h
    · injection h with _ hmag
      refine ⟨_, _, finiteFields_of_finiteNonZero hb, ?_⟩
      rw [hmag, magValue_fieldMag, mantField_eq_mod]
      rfl
  · rintro ⟨E, T, hf, hmag⟩
    refine .inr ⟨packNat F (d.getMsbD 0) E T, finiteNonZero_packNat hf _, ?_⟩
    rw [← signField_eq_testBit, signField_packNat _ hf.expf_lt_pow hf.mant_lt, ← mantField_eq_mod,
      mantField_packNat _ hf.mant_lt, hmag, magValue_fieldMag]
    exact congrArg (fun E => Rational.RatValue.finite _ (Rational.patternMag E T F))
      (expField_packNat _ hf.expf_lt_pow hf.mant_lt).symm

/-! ### The predicate -/

section Fixpoints
variable (f : Fmt) (rm : RoundMode)

/-- An infinity or a zero is its own round trip (R121, R151). -/
theorem roundTo_word_of_mem_classConstants : ∀ x ∈ classConstants, (roundTo x.2 (desc f) rm).2.word = x.2 := by
  intro x hx
  obtain ⟨p, hp⟩ : ∃ p, (p, ⟨x.2, x.1⟩) ∈ specialReadings (desc f) := by
    revert x
    simp [classConstants, specialReadings]
  rw [roundTo, encodeWord_special _ rm _ hp, decodePattern_special f rm _ hp]

/-- A word whose magnitude the format holds is its own round trip: both directions are exact (R131 (e), R157). -/
theorem roundTo_word_of_isMagnitude {d : Word} (hd : FiniteWord d)
    (h : IsMagnitude (desc f) (magValue (wordMag d))) : (roundTo d (desc f) rm).2.word = d := by
  obtain ⟨E, T, hf, hmag⟩ := h
  rw [roundTo, encodeWord_eq_encodeMag hd, encodeMag_exact hf hmag, decodePattern_packNat f _ hf, outputStage,
    encodeMag_exact hd hmag.symm, BitVec.setWidth_ofNat_of_le (by norm_num), getMsbD_eq_signField,
    ofNat_packNat_fields]

/-- A finite non-zero word that is its own round trip holds the value of a pattern: binary128 holds every word,
and a pattern of the other formats is read as its own magnitude (R157). -/
theorem isMagnitude_of_roundTo_word {d : Word} (hd : FiniteWord d) (h : (roundTo d (desc f) rm).2.word = d) :
    IsMagnitude (desc f) (magValue (wordMag d)) := by
  by_cases hwide : f = .b128
  · exact hwide ▸ isMagnitude_b128_wordMag hd
  rw [roundTo, encodeWord_eq_encodeMag hd] at h
  obtain hspecial | ⟨E, T, hf, hpack⟩ := encodeMag_cases f (wordMag_sig_ne_zero hd) (d.getMsbD 0) rm
  · obtain ⟨x, hx, hx'⟩ := List.mem_map.1 hspecial
    rw [← hx', decodePattern_special f rm x hx] at h
    exact absurd (h ▸ hd) (not_finiteWord_of_mem_specialReadings _ x hx)
  · rw [hpack, decodePattern_packNat f _ hf] at h
    have hword : outputStage (d.getMsbD 0) (fieldMag (desc f) E T) rm = d := h
    have hval := rational_val64_outputStage hwide hf (d.getMsbD 0) rm
    rw [hword, rational_val64_of_finiteWord hd] at hval
    injection hval with _ hmag
    exact ⟨E, T, hf, hmag.trans (magValue_fieldMag ..).symm⟩

/-- The predicate is R175's in either mode: a NaN fails it, an infinity or a zero passes, and a finite non-zero
word passes when its magnitude is one of the format's. -/
theorem valEq_roundTo_iff_isFormatValue (d : Word) :
    valEq d (roundTo d (desc f) rm).2.word = true ↔ IsFormatValue (desc f) d := by
  obtain hnan | ⟨x, hx, rfl⟩ | hd := word_cases d
  · have hnan := (isNaN_iff_fields d).2 hnan
    exact iff_of_false (fun h => ((valEq_iff _ _).1 h).1 hnan) (not_isFormatValue_of_isNaN hnan _)
  · rw [roundTo_word_of_mem_classConstants f rm x hx]
    exact iff_of_true (valEq_self (not_isNaN_of_mem_classConstants x hx))
      (isFormatValue_of_mem_classConstants _ x hx)
  · rw [valEq_iff_eq_of_finiteWord hd, isFormatValue_iff_isMagnitude hd, eq_comm]
    exact ⟨isMagnitude_of_roundTo_word f rm hd, roundTo_word_of_isMagnitude f rm hd⟩

end Fixpoints

/-- Settles O49: the predicate is `IsFormatValue` in either mode, so the modes give one `Q`. -/
theorem predicateIgnoresTheRoundingMode : Obligations.PredicateIgnoresTheRoundingMode := by
  intro f s F
  have hq : valEq s.val (roundTo s.val F .rne).2.word = valEq s.val (roundTo s.val F .rha).2.word :=
    Bool.eq_iff_iff.2 ((valEq_roundTo_iff_isFormatValue f .rne s.val).trans
      (valEq_roundTo_iff_isFormatValue f .rha s.val).symm)
  refine ⟨_, exec_isfloat f .rha s, ?_, valEq_roundTo_iff_isFormatValue f .rha s.val⟩
  rw [exec_isfloat, hq]

end Sys2Proof.Machine

/-! The system command `CLRERR` (spec/45_system.md R185, R186). -/

namespace Sys2Proof.Machine

open Laws.MatchesRow (row)

/-- The one word of `CLRERR` (R185). -/
theorem encode_mem_of_row_clrerr (i : Instr) (_ : WellFormed i = true) (hrow : row i = .clrerr) :
    encode i ∈ [0x0000000000000007#64] := by
  cases i with
  | clrerr => exact List.mem_singleton_self _
  | _ => cases hrow

/-- Zero fields make a zero word (R27). -/
theorem statusWord_eq_zero {s : State} (herr : s.err = .none) (hcls : s.cls = .none) (hq : s.q = false) :
    statusWord s = 0#64 := by
  rw [statusWord_eq_ofNat, herr, hcls, hq]
  rfl

/-- Settles O50: the arm of `exec`, reached by the word of the command; the state it answers has the three
fields of `STATUS` zero, and the other words of the operation are the encoding of no command. -/
theorem clrerrZeroesStatus : Obligations.ClrerrZeroesStatus := fun s =>
  have hexec := exec_clrerr s
  ⟨hexec, (regWrite_accepted _ s (decode_encode .clrerr rfl)).trans hexec, statusWord_eq_zero rfl rfl rfl,
    refusesOtherWords_of_forall_encode_mem rfl encode_mem_of_row_clrerr s⟩

end Sys2Proof.Machine

/-! Refusals (spec/60_exceptions.md): no operand value stops a command (R195), a refused transaction only
latches its code (R196), and the latch is sticky and read by nothing but `STATUS` (R197). -/

namespace Sys2Proof.Machine

/-! ### No operand value stops a command -/

/-- Settles O51: every arm answers a next state; none but `CLRERR` writes `ERR`, which `DESC` latches only for
a reserved selector. -/
theorem noOperandValueStopsACommand : Obligations.NoOperandValueStopsACommand := by
  intro i s
  cases i with
  | classify f => exact ⟨_, exec_classify f s, fun _ _ => complete_err ..⟩
  | encode f rm => exact ⟨_, exec_encode f rm s, fun _ _ => complete_err ..⟩
  | decode f rm => exact ⟨_, exec_decode f rm s, fun _ _ => complete_err ..⟩
  | round f rm => exact ⟨_, exec_round f rm s, fun _ _ => complete_err ..⟩
  | isfloat f rm => exact ⟨_, exec_isfloat f rm s, fun _ _ => complete_err ..⟩
  | desc f sel =>
    obtain ⟨v, -, hexec⟩ | ⟨hlt, hexec⟩ := exec_desc_cases f s sel
    · exact ⟨_, hexec, fun _ _ => complete_err ..⟩
    · refine ⟨_, hexec, fun hwf _ => ?_⟩
      have hle := (wellFormed_desc_iff f sel).1 hwf
      omega
  | clrerr => exact ⟨_, exec_clrerr s, fun _ hne => absurd rfl hne⟩

/-! ### What a transaction does to the latch -/

section Verdict
variable {i : Index} {v : Word}

theorem refusalOf_regWrite_accepted {c : Instr} (h : decode v = .accepted c) :
    refusalOf (.regWrite 3#3 v) = none := by
  simp [refusalOf, slotOf, h]

theorem refusalOf_regWrite_refused {e : ErrCode} (h : decode v = .refused e) :
    refusalOf (.regWrite 3#3 v) = some e := by
  simp [refusalOf, slotOf, h]

theorem slotOf_of_unwritable (hi : 4 ≤ i.toNat) : slotOf i = .status ∨ slotOf i = .unmapped := by
  revert i; decide

theorem refusalOf_regWrite_unwritable (hi : 4 ≤ i.toNat) : refusalOf (.regWrite i v) = some .badAccess := by
  obtain h | h := slotOf_of_unwritable hi <;> simp [refusalOf, h]

theorem clearsErr_regWrite_iff :
    clearsErr (.regWrite i v) = true ↔ slotOf i = .cmd ∧ decode v = .accepted .clrerr := by
  simp [clearsErr]

/-- `CLRERR` is a command, so a write that clears the latch is accepted. -/
theorem clearsErr_regWrite_of_refused {e : ErrCode} (h : refusalOf (.regWrite i v) = some e) :
    clearsErr (.regWrite i v) = false := by
  refine Bool.eq_false_iff.2 fun hclear => ?_
  obtain ⟨hslot, hdec⟩ := clearsErr_regWrite_iff.1 hclear
  simp [refusalOf, hslot, hdec] at h

theorem refusalOf_regRead_eq_some_iff {e : ErrCode} :
    refusalOf (.regRead i) = some e ↔ slotOf i = .unmapped ∧ e = .badAccess := by
  simp [refusalOf, eq_comm]

end Verdict

/-- What the delivery of `t` in `s` does when it ends in `u`: it clears the latch, or it is accepted and keeps
`ERR`, or it is refused and is `refuse` but for the word a read hands to the host (R196, R197). -/
inductive LatchEffect (t : Transaction) (s u : State) : Prop
  | clears (hclear : clearsErr t = true) (hok : refusalOf t = none) (herr : u.err = .none)
  | keeps (hclear : clearsErr t = false) (hok : refusalOf t = none) (herr : u.err = s.err)
  | latches {e : ErrCode} (hclear : clearsErr t = false) (href : refusalOf t = some e)
      (hu : u = { refuse e s with returned := u.returned })

theorem LatchEffect.refuse_regWrite {i : Index} {v : Word} {e : ErrCode}
    (h : refusalOf (.regWrite i v) = some e) (s : State) : LatchEffect (.regWrite i v) s (refuse e s) :=
  .latches (clearsErr_regWrite_of_refused h) h rfl

theorem regRead_latchEffect (i : Index) (s : State) : ∃ u, deliver (.regRead i) s = .next u ∧
    LatchEffect (.regRead i) s u := by
  refine ⟨_, rfl, ?_⟩
  obtain ⟨hread, hslot⟩ | ⟨hread, hslot⟩ := regRead_state i s
  · exact .keeps rfl (if_neg hslot) (by rw [hread])
  · exact .latches rfl (if_pos hslot) (by rw [hread])

/-- Of the accepted writes only `CLRERR` touches `ERR` (`noOperandValueStopsACommand`). -/
theorem regWrite_latchEffect (i : Index) (v : Word) (s : State) : ∃ u, regWrite i v s = .next u ∧
    LatchEffect (.regWrite i v) s u := by
  obtain ⟨rfl, hval⟩ | ⟨rfl, hlo⟩ | ⟨rfl, hhi⟩ | ⟨rfl, c, hdec, hcmd⟩ | ⟨rfl, e, hdec, hrefused⟩ |
    ⟨hi, hbad⟩ := regWrite_cases i v s
  · exact ⟨_, hval, .keeps rfl rfl rfl⟩
  · exact ⟨_, hlo, .keeps rfl rfl rfl⟩
  · exact ⟨_, hhi, .keeps rfl rfl rfl⟩
  · have hok := refusalOf_regWrite_accepted hdec
    rw [hcmd]
    by_cases hc : c = .clrerr
    · subst hc
      exact ⟨_, exec_clrerr s, .clears (clearsErr_regWrite_iff.2 ⟨rfl, hdec⟩) hok rfl⟩
    · obtain ⟨u, hexec, herr⟩ := noOperandValueStopsACommand c s
      refine ⟨u, hexec, .keeps (Bool.eq_false_iff.2 fun hclear => hc ?_) hok (herr (encode_decode hdec).1 hc)⟩
      exact Decoded.accepted.inj (hdec.symm.trans (clearsErr_regWrite_iff.1 hclear).2)
  · exact ⟨_, hrefused, .refuse_regWrite (refusalOf_regWrite_refused hdec) s⟩
  · exact ⟨_, hbad, .refuse_regWrite (refusalOf_regWrite_unwritable hi) s⟩

theorem deliver_latchEffect (t : Transaction) (s : State) : ∃ u, deliver t s = .next u ∧ LatchEffect t s u := by
  cases t with
  | reset => exact ⟨_, rfl, .clears rfl rfl rfl⟩
  | regRead i => exact regRead_latchEffect i s
  | regWrite i v => exact regWrite_latchEffect i v s

theorem regRead_of_refused {i : Index} {e : ErrCode} (h : refusalOf (.regRead i) = some e) (s : State) :
    (regRead i s).1 = 0#64 := by
  have hi := (slotOf_eq_unmapped_iff i).1 (refusalOf_regRead_eq_some_iff.1 h).1
  rw [regRead_unmapped s hi]

/-- Settles O18: of the three effects only `latches` is a refused transaction's, and its state is `refuse`. -/
theorem refusedTransactionOnlyLatches : Obligations.RefusedTransactionOnlyLatches := by
  intro t c s href
  obtain ⟨u, hnext, heffect⟩ := deliver_latchEffect t s
  refine ⟨u, hnext, ?_⟩
  cases heffect with
  | clears _ hok => cases hok.symm.trans href
  | keeps _ hok => cases hok.symm.trans href
  | latches _ href' hu =>
    cases href'.symm.trans href
    rw [hu]
    exact ⟨refuse_val c s, refuse_pat c s, refuse_cls c s, refuse_q c s, refuse_err c s,
      fun i hi => regRead_of_refused (hi ▸ href) s⟩

/-- Settles O19: each effect meets the clauses its verdict selects; `refuse` keeps a code that is not zero. -/
theorem errorCodeIsStickyUntilCleared : Obligations.ErrorCodeIsStickyUntilCleared := by
  intro t s
  obtain ⟨u, hnext, heffect⟩ := deliver_latchEffect t s
  refine ⟨u, hnext, ?_⟩
  cases heffect with
  | clears hclear _ herr => simp [hclear, herr]
  | keeps hclear _ herr => simp [hclear, herr]
  | latches hclear href hu =>
    rw [hu]
    exact ⟨by simp [hclear], fun _ hne => (refuse_err _ s).trans (if_neg hne), by simp [href]⟩

/-! ### Nothing but a read of `STATUS` shows the latch -/

/-- The states differ in `ERR` at most. -/
def AgreeButErr (a b : State) : Prop := ∃ e, b = { a with err := e }

theorem AgreeButErr.symm {a b : State} (h : AgreeButErr a b) : AgreeButErr b a := by
  obtain ⟨_, rfl⟩ := h
  exact ⟨a.err, rfl⟩

theorem AgreeButErr.trans {a b c : State} (hab : AgreeButErr a b) (hbc : AgreeButErr b c) : AgreeButErr a c := by
  obtain ⟨_, rfl⟩ := hab
  obtain ⟨e, rfl⟩ := hbc
  exact ⟨e, rfl⟩

theorem agreeButErr_refuse (code : ErrCode) (s : State) : AgreeButErr s (refuse code s) := by
  obtain ⟨-, h⟩ | ⟨-, h⟩ := refuse_cases code s
  · exact ⟨code, h⟩
  · exact ⟨s.err, h⟩

theorem AgreeButErr.refuse {s t : State} (h : AgreeButErr s t) (code : ErrCode) :
    AgreeButErr (refuse code s) (refuse code t) :=
  (agreeButErr_refuse code s).symm.trans (h.trans (agreeButErr_refuse code t))

/-- No command reads `ERR` (R36). -/
theorem exec_agreeButErr (i : Instr) {s t : State} (h : AgreeButErr s t) :
    ∃ a b, exec i s = .next a ∧ exec i t = .next b ∧ AgreeButErr a b := by
  cases i with
  | desc f sel =>
    cases hfield : descField (desc f) sel with
    | none =>
      exact ⟨_, _, exec_desc_of_reserved hfield s, exec_desc_of_reserved hfield t, h.refuse _⟩
    | some v =>
      obtain ⟨e, rfl⟩ := h
      exact ⟨_, _, exec_desc_of_field hfield s, exec_desc_of_field hfield _, e, rfl⟩
  | clrerr =>
    obtain ⟨e, rfl⟩ := h
    exact ⟨_, _, exec_clrerr s, exec_clrerr _, .none, rfl⟩
  | _ =>
    obtain ⟨e, rfl⟩ := h
    exact ⟨_, _, rfl, rfl, e, rfl⟩

theorem regRead_agreeButErr (i : Index) {s t : State} (h : AgreeButErr s t) :
    AgreeButErr (regRead i s).2 (regRead i t).2 ∧ (i ≠ 4#3 → (regRead i s).1 = (regRead i t).1) := by
  obtain ⟨rfl, -⟩ | ⟨rfl, -⟩ | ⟨rfl, -⟩ | ⟨rfl, -⟩ | ⟨rfl, -⟩ | ⟨hi, -⟩ := slotOf_cases i
  case inr.inr.inr.inr.inr =>
    rw [regRead_unmapped s hi, regRead_unmapped t hi]
    exact ⟨h.refuse _, fun _ => rfl⟩
  case inr.inr.inr.inr.inl => exact ⟨h, fun hne => absurd rfl hne⟩
  all_goals
    obtain ⟨e, rfl⟩ := h
    exact ⟨⟨e, rfl⟩, fun _ => rfl⟩

theorem regWrite_agreeButErr (i : Index) (v : Word) {s t : State} (h : AgreeButErr s t) :
    ∃ a b, regWrite i v s = .next a ∧ regWrite i v t = .next b ∧ AgreeButErr a b := by
  obtain ⟨rfl, hs⟩ | ⟨rfl, hs⟩ | ⟨rfl, hs⟩ | ⟨rfl, c, hdec, hs⟩ | ⟨rfl, code, hdec, hs⟩ | ⟨hi, hs⟩ :=
    regWrite_cases i v s
  case inr.inr.inr.inl =>
    rw [hs, regWrite_accepted v t hdec]
    exact exec_agreeButErr c h
  case inr.inr.inr.inr.inl => exact ⟨_, _, hs, regWrite_refused v t hdec, h.refuse code⟩
  case inr.inr.inr.inr.inr => exact ⟨_, _, hs, regWrite_unwritable v t hi, h.refuse _⟩
  all_goals
    obtain ⟨e, rfl⟩ := h
    exact ⟨_, _, hs, rfl, e, rfl⟩

/-- Settles O20: every transaction takes states that agree but in `ERR` to such states, and only the word read
at index 4 depends on `ERR`. -/
theorem errorCodeAffectsNothingElse : Obligations.ErrorCodeAffectsNothingElse := by
  intro t s e
  have hagree : AgreeButErr s { s with err := e } := ⟨e, rfl⟩
  cases t with
  | reset => exact ⟨_, _, rfl, rfl, rfl, rfl, rfl, rfl, rfl, fun _ => rfl⟩
  | regRead i =>
    obtain ⟨⟨e', hstate⟩, hword⟩ := regRead_agreeButErr i hagree
    refine ⟨_, _, rfl, rfl, ?_⟩
    rw [hstate]
    refine ⟨rfl, rfl, rfl, rfl, rfl, fun hne => ?_⟩
    rw [hword fun hi => hne (congrArg Transaction.regRead hi)]
  | regWrite i v =>
    obtain ⟨a, b, ha, hb, e', rfl⟩ := regWrite_agreeButErr i v hagree
    exact ⟨_, _, ha, hb, rfl, rfl, rfl, rfl, rfl, fun _ => rfl⟩

end Sys2Proof.Machine

/-! Reset, the half writes of `PAT`, and the runs of the queue (spec/70_reset_and_hazards.md). -/

namespace Sys2Proof.Machine

/-! ### Reset -/

theorem deliver_reset (s : State) : deliver .reset s = .next (resetBlock s) := rfl

/-- A NaN value and a pattern that is not zero. -/
def nanOperands : State := { State.reset with val := qnan64, pat := 1#128 }

theorem encodeWord_qnan64 (F : Descriptor) (rm : RoundMode) : encodeWord qnan64 F rm = F.nan := by
  simp only [encodeWord, val64_constants.1]

theorem desc_nan_ne_zero (f : Fmt) : (desc f).nan ≠ 0#128 := by cases f <;> decide

/-- No command resets the block: `DECODE` keeps `PAT`, `ROUND` writes the canonical NaN of its format there, and
the other commands keep `VAL`. -/
theorem exec_nanOperands_ne_zero (i : Instr) :
    ∃ t, exec i nanOperands = .next t ∧ (t.val ≠ 0#64 ∨ t.pat ≠ 0#128) := by
  have hval : nanOperands.val ≠ 0#64 := by decide
  cases i with
  | classify f => exact ⟨_, exec_classify f _, .inl hval⟩
  | encode f rm => exact ⟨_, exec_encode f rm _, .inl hval⟩
  | decode f rm => exact ⟨_, exec_decode f rm _, .inr (by decide : nanOperands.pat ≠ 0#128)⟩
  | round f rm =>
    refine ⟨_, exec_round f rm _, .inr ?_⟩
    change encodeWord qnan64 (desc f) rm ≠ 0#128
    rw [encodeWord_qnan64]
    exact desc_nan_ne_zero f
  | isfloat f rm => exact ⟨_, exec_isfloat f rm _, .inl hval⟩
  | desc f sel =>
    obtain ⟨v, -, hexec⟩ | ⟨-, hexec⟩ := exec_desc_cases f nanOperands sel
    · exact ⟨_, hexec, .inl hval⟩
    · exact ⟨_, hexec, .inl ((refuse_val _ _).trans_ne hval)⟩
  | clrerr => exact ⟨_, exec_clrerr _, .inl hval⟩

/-- Settles O2: `resetBlock` field by field, the constructors of `Transaction`, and `nanOperands` for the
commands. -/
theorem resetReachesResetValuesFromAnyState : Obligations.ResetReachesResetValuesFromAnyState := by
  refine ⟨fun s => ⟨_, deliver_reset s, resetBlock_val s, resetBlock_pat s, resetBlock_cls s, resetBlock_q s,
    resetBlock_err s⟩, fun t => ?_, fun i => ⟨_, exec_nanOperands_ne_zero i⟩⟩
  cases t with
  | reset => exact .inl rfl
  | regRead i => exact .inr (.inl ⟨i, rfl⟩)
  | regWrite i v => exact .inr (.inr ⟨i, v, rfl⟩)

/-- Settles O3: the four words of a block whose fields are all zero. -/
theorem readsAfterResetReturnZero : Obligations.ReadsAfterResetReturnZero := fun s =>
  ⟨_, deliver_reset s, statusWord_eq_zero (resetBlock_err s) (resetBlock_cls s) (resetBlock_q s),
    resetBlock_val s, (by decide : patLo 0#128 = 0#64), (by decide : patHi 0#128 = 0#64)⟩

/-! ### The two halves of `PAT` -/

/-- Settles O7: each half write keeps the other half of the join. -/
theorem patHalfWritesCommute : Obligations.PatHalfWritesCommute := by
  intro s lo hi
  refine ⟨_, _, _, regWrite_patLo lo s, regWrite_patHi hi _, regWrite_patHi hi s, ?_, ?_⟩
  · simp only [regWrite_patLo, patHi_patJoin, patLo_patJoin]
  · simp only [patLo_patJoin]
    rfl

/-! ### What a transaction does to the host's fields -/

/-- A command answers a next state with the host's fields unchanged. -/
theorem exec_keeps_host (i : Instr) (s : State) :
    ∃ u, exec i s = .next u ∧ u.pending = s.pending ∧ u.returned = s.returned := by
  cases i with
  | classify f => exact ⟨_, exec_classify f s, rfl, rfl⟩
  | encode f rm => exact ⟨_, exec_encode f rm s, rfl, rfl⟩
  | decode f rm => exact ⟨_, exec_decode f rm s, rfl, rfl⟩
  | round f rm => exact ⟨_, exec_round f rm s, rfl, rfl⟩
  | isfloat f rm => exact ⟨_, exec_isfloat f rm s, rfl, rfl⟩
  | desc f sel =>
    obtain ⟨v, -, hexec⟩ | ⟨-, hexec⟩ := exec_desc_cases f s sel
    · exact ⟨_, hexec, rfl, rfl⟩
    · exact ⟨_, hexec, refuse_pending _ s, refuse_returned _ s⟩
  | clrerr => exact ⟨_, exec_clrerr s, rfl, rfl⟩

theorem regRead_pending (i : Index) (s : State) : (regRead i s).2.pending = s.pending := by
  obtain ⟨hread, -⟩ | ⟨hread, -⟩ := regRead_state i s
  · rw [hread]
  · rw [hread, refuse_pending]

theorem regWrite_keeps_host (i : Index) (v : Word) (s : State) :
    ∃ u, regWrite i v s = .next u ∧ u.pending = s.pending ∧ u.returned = s.returned := by
  obtain ⟨-, hval⟩ | ⟨-, hlo⟩ | ⟨-, hhi⟩ | ⟨-, c, -, hcmd⟩ | ⟨-, e, -, hrefused⟩ | ⟨-, hbad⟩ :=
    regWrite_cases i v s
  · exact ⟨_, hval, rfl, rfl⟩
  · exact ⟨_, hlo, rfl, rfl⟩
  · exact ⟨_, hhi, rfl, rfl⟩
  · rw [hcmd]
    exact exec_keeps_host c s
  · exact ⟨_, hrefused, refuse_pending e s, refuse_returned e s⟩
  · exact ⟨_, hbad, refuse_pending _ s, refuse_returned _ s⟩

/-- The words a transaction hands to the host: one for a read, none otherwise. -/
def wordsRead (t : Transaction) (s : State) : List Word :=
  match t with
  | .regRead i => [(regRead i s).1]
  | _ => []

/-- Every transaction is answered, leaves the queue alone, and adds to the returned words those it reads. -/
theorem deliver_host (t : Transaction) (s : State) :
    ∃ u, deliver t s = .next u ∧ u.pending = s.pending ∧ u.returned = s.returned ++ wordsRead t s := by
  cases t with
  | reset => exact ⟨_, deliver_reset s, resetBlock_pending s, (List.append_nil _).symm⟩
  | regRead i => exact ⟨_, rfl, regRead_pending i s, rfl⟩
  | regWrite i v =>
    obtain ⟨u, hnext, hpending, hreturned⟩ := regWrite_keeps_host i v s
    exact ⟨u, hnext, hpending, hreturned.trans (List.append_nil _).symm⟩

theorem pending_of_deliver {t : Transaction} {s u : State} (h : deliver t s = .next u) :
    u.pending = s.pending := by
  obtain ⟨u', hnext, hpending, -⟩ := deliver_host t s
  cases hnext.symm.trans h
  exact hpending

/-- Settles O16: a step is idle or delivers the head of the queue, and no transaction touches the rest. -/
theorem stepAlwaysAnswersNext : Obligations.StepAlwaysAnswersNext := by
  intro s
  obtain ⟨hnone, hidle⟩ | ⟨t, ts, hsome, hstep⟩ := step_cases s
  · exact ⟨s, hidle, by rw [hnone, List.tail_nil]⟩
  · obtain ⟨u, hnext, hpending, -⟩ := deliver_host t { s with pending := ts }
    exact ⟨u, hstep.trans hnext, by rw [hpending, hsome, List.tail_cons]⟩

/-! ### Runs of the queue -/

/-- The run of a queue is the delivery of its head, then the run of the rest. -/
theorem run_queue_cons {t : Transaction} {ts : List Transaction} {s u : State}
    (h : deliver t { s with pending := ts } = .next u) :
    Host.Core.run core (t :: ts).length { s with pending := t :: ts } =
      Host.Core.run core ts.length { u with pending := ts } := by
  obtain rfl : u.pending = ts := pending_of_deliver h
  exact run_cons rfl h

/-- Settles O17, by induction on the queue: the words of the head come before those of the rest. -/
theorem runsEndWithOneWordPerRead : Obligations.RunsEndWithOneWordPerRead := by
  intro ts
  induction ts with
  | nil => exact fun s => ⟨_, [], rfl, rfl, (List.append_nil _).symm, rfl⟩
  | cons t ts ih =>
    intro s
    obtain ⟨u, hnext, -, hreturned⟩ := deliver_host t { s with pending := ts }
    obtain ⟨v, ws, hrun, hpending, hwords, hlength⟩ := ih u
    refine ⟨v, wordsRead t { s with pending := ts } ++ ws, (run_queue_cons hnext).trans hrun, hpending, ?_, ?_⟩
    · rw [hwords, hreturned, List.append_assoc]
    · rw [List.length_append, hlength, List.countP_cons, Nat.add_comm]
      cases t <;> rfl

/-! ### The latch at the end of a run -/

theorem refusalOf_ne_some_none (t : Transaction) : refusalOf t ≠ some .none := by
  intro h
  cases t with
  | reset => cases h
  | regRead i => cases (refusalOf_regRead_eq_some_iff.1 h).2
  | regWrite i v =>
    obtain ⟨rfl, -⟩ | ⟨rfl, -⟩ | ⟨rfl, -⟩ | ⟨rfl, c, hdec, -⟩ | ⟨rfl, e, hdec, -⟩ | ⟨hi, -⟩ :=
      regWrite_cases i v State.reset
    · cases h
    · cases h
    · cases h
    · cases (refusalOf_regWrite_accepted hdec).symm.trans h
    · cases (refusalOf_regWrite_refused hdec).symm.trans h
      exact decode_refused_ne_none hdec rfl
    · cases (refusalOf_regWrite_unwritable hi).symm.trans h

/-- A transaction that does not clear a latch that is set leaves `ERR` zero exactly when it was zero before and
the transaction is accepted. -/
theorem LatchEffect.err_eq_none_iff {t : Transaction} {s u : State} (h : LatchEffect t s u)
    (hkeep : s.err ≠ .none → clearsErr t = false) : u.err = .none ↔ s.err = .none ∧ refusalOf t = none := by
  cases h with
  | clears hclear hok herr =>
    have hs : s.err = .none := by_contra fun hne => Bool.false_ne_true ((hkeep hne).symm.trans hclear)
    simp [herr, hs, hok]
  | keeps _ hok herr => simp [herr, hok]
  | @latches e _ href hu =>
    have he : e ≠ .none := fun he => refusalOf_ne_some_none t (he ▸ href)
    rw [hu]
    by_cases hs : s.err = .none <;> simp [hs, he, href]

theorem NoClearAfterRefusal.head {t : Transaction} {ts : List Transaction} (h : NoClearAfterRefusal (t :: ts))
    (href : refusalOf t ≠ none) : ∀ x ∈ ts, clearsErr x = false :=
  fun x hx => h [] ts t x rfl href hx

theorem NoClearAfterRefusal.tail {t : Transaction} {ts : List Transaction} (h : NoClearAfterRefusal (t :: ts)) :
    NoClearAfterRefusal ts :=
  fun before after x y hts => h (t :: before) after x y (congrArg (t :: ·) hts)

theorem clean_cons_iff {t : Transaction} {ts : List Transaction} :
    Clean (t :: ts) ↔ refusalOf t = none ∧ Clean ts := List.forall_mem_cons

/-- R231 from any start state: a latch already set counts as a refusal before the run, so nothing of the queue
may clear it. -/
theorem run_err_eq_none_iff (ts : List Transaction) (s : State)
    (hkeep : s.err ≠ .none → ∀ t ∈ ts, clearsErr t = false) (hts : NoClearAfterRefusal ts) :
    ∃ v, Host.Core.run core ts.length { s with pending := ts } = .next v ∧
      (v.err = .none ↔ s.err = .none ∧ Clean ts) := by
  induction ts generalizing s with
  | nil => exact ⟨_, rfl, by simp [Clean]⟩
  | cons t ts ih =>
    obtain ⟨u, hnext, heffect⟩ := deliver_latchEffect t { s with pending := ts }
    have hu : u.err = .none ↔ s.err = .none ∧ refusalOf t = none :=
      heffect.err_eq_none_iff fun hs => hkeep hs t List.mem_cons_self
    have hkeep' : u.err ≠ .none → ∀ x ∈ ts, clearsErr x = false := by
      intro hne
      by_cases hs : s.err = .none
      · exact hts.head fun hok => hne (hu.2 ⟨hs, hok⟩)
      · exact fun x hx => hkeep hs x (List.mem_cons_of_mem t hx)
    obtain ⟨v, hrun, hv⟩ := ih u hkeep' hts.tail
    exact ⟨v, (run_queue_cons hnext).trans hrun, by rw [hv, hu, clean_cons_iff, and_assoc]⟩

/-- Settles O52: the start state's `ERR` is zero, so only the transactions of the run count. -/
theorem errZeroAtTheEndMeansNothingWasRefused : Obligations.ErrZeroAtTheEndMeansNothingWasRefused := by
  intro ts s hs hts
  obtain ⟨v, hrun, hv⟩ := run_err_eq_none_iff ts s (fun hne => absurd hs hne) hts
  exact ⟨v, hrun, hv.trans (and_iff_right hs)⟩

end Sys2Proof.Machine
